-- ==== Sys2Proof/Word.lean ====
section
/-! DEFINITION. The machine's word: every value of the core is an unsigned byte (R13, R14). -/

namespace Sys2Proof

/-- A register, a memory cell, an address, the program counter, the flags: 8 bits, bit 0 least significant (R10, R14). -/
abbrev Byte := BitVec 8

end Sys2Proof
end

