-- ==== Sys2Proof/Config.lean ====
section
/-! DEFINITION. The parameters of R10 that have one value in this model. The open parameters OPCODE_MAP, EXIT_CODES and
OUT_RENDER are arguments of the definitions that use them (`OpcodeMap`, `ExitCodes`, `renderOut`), and GPR_RESET is an
argument of `State.resetWith`; nothing here gives the host's parameters a value. -/

namespace Sys2Proof.Config

/-- MEM_SIZE: 256 cells (R10, R48). -/
def memSize : Nat := 256

/-- SP_RESET: the stack pointer after reset (R10, R32). -/
def spReset : Byte := 0xF4

/-- GPR_RESET as `State.reset` takes it, for R0 to R6 (R36). DESIGN CHOICE (log entry 3), unsafe: the spec leaves the
seven values open, and every statement about reset is made for all of them through `State.resetWith`. -/
def gprReset : Fin 7 → Byte := fun _ => 0x00

/-- IR as `State.reset` takes it (R47). DESIGN CHOICE (log entry 4), unsafe: the spec leaves it unspecified and unobservable. -/
def irReset : Byte := 0x00

end Sys2Proof.Config
end

