-- ==== Sys2Proof/Machine/State.lean ====
section
/-! DEFINITION. The state of the core as plain data (R30), and the state after reset (R230). -/

namespace Sys2Proof.Machine

/-- The fatal errors, numbered 1, 2, 3 by R201. -/
inductive FaultKind where
  | unknownInstruction         -- kind 1: the dispatcher, for an opcode that is not in the map (R202)
  | registerIndexFault         -- kind 2: an instruction that uses a register operand of 8 or more (R204)
  | unsupportedALUOperation    -- kind 3: the ALU, for an operation other than ADD, MUL, CMP; unreachable (R205)
  deriving DecidableEq, Repr

/-- The run state of the dispatcher (R46, R120). -/
inductive Status where
  | idle                                            -- after reset, before `start`
  | running                                         -- steps happen
  | halted                                          -- terminal, entered by HLT
  | faulted (kind : FaultKind) (pc info : Byte)     -- terminal, entered by a fatal error
  deriving DecidableEq, Repr

/-- Memory as the cells that differ from its reset contents: addresses strictly rising, none listed with the value an
unlisted address reads as (`Memory.wf`, Machine/Ops.lean). -/
abbrev Memory := List Host.Cell

/-- What an address that is not listed reads as: the reset contents of memory, 0x00 (R30, R48; log entry 13). -/
def Memory.unlisted : Byte := 0x00

/-- The complete architectural state of the core, and nothing else (R30). -/
structure State where
  regs   : Vector Byte 8     -- x[0] to x[7]; x[7] is the stack pointer (R31, R32)
  pc     : Byte              -- address of the opcode to fetch (R37)
  fl     : Byte              -- flags, bit 0 the equality bit E (R41)
  ir     : Byte              -- the opcode fetched by the current step (R47)
  status : Status            -- run state (R46)
  mem    : Memory            -- M[0] to M[255] (R48)
  out    : List Byte         -- values emitted by PRN, oldest first (R49)
  deriving DecidableEq, Repr

/-- Reasons a step could end without a next state as a fault of the model's own. There is none: every fatal error of
the spec is a value of `Status` in a NEXT state (R20, R121, R203), and no access faults (R63). Nothing raises it;
safe. -/
inductive Fault : Type
  deriving DecidableEq, Repr

/-- Reasons a step could end without a meaning. -/
inductive Refusal where
  /-- An instruction that has no meaning yet. Raised by no arm of `exec`: every instruction has its meaning. Safe. -/
  | notModelled (mnemonic : String)
  deriving DecidableEq, Repr

/-- The machine right after reset for every value of the open parameter GPR_RESET and of the unspecified IR (R30, R36,
R47, R230). -/
def State.resetWith (gpr : Fin 7 → Byte) (ir : Byte) : State where
  regs   := #v[gpr 0, gpr 1, gpr 2, gpr 3, gpr 4, gpr 5, gpr 6, Config.spReset]
  pc     := 0x00
  fl     := 0x00
  ir     := ir
  status := .idle
  mem    := []
  out    := []

/-- The machine right after reset, with the values log entries 3 and 4 name for GPR_RESET and IR (DESIGN CHOICE). -/
def State.reset : State := State.resetWith Config.gprReset Config.irReset

end Sys2Proof.Machine
end

