-- ==== Sys2Proof/Machine/Ops.lean ====
section
/-! DEFINITION. The named operations over memory, registers, the program counter, the output log and the run state, and
the one operation that raises a fatal error. There is no return from a fault to write beside it (R200, R209). -/

namespace Sys2Proof.Machine

/-- `wrap8(v) = v mod 256` for any integer (R18). -/
def wrap8 (v : Int) : Byte := BitVec.ofInt 8 v

/-! ### Memory as data -/

/-- The byte at address `a`. -/
def Memory.read : Memory → Nat → Byte
  | [], _ => Memory.unlisted
  | (b, w) :: m, a => if b = a then w else Memory.read m a

/-- Put a cell before the first cell of a greater address. -/
def Memory.insertCell (a : Nat) (v : Byte) : Memory → Memory
  | [] => [(a, v)]
  | (b, w) :: m => if a < b then (a, v) :: (b, w) :: m else (b, w) :: Memory.insertCell a v m

/-- Every cell but the one at address `a`. -/
def Memory.erase (m : Memory) (a : Nat) : Memory := m.filter fun c => c.1 ≠ a

/-- Set the byte at address `a`; writing the value an unlisted address reads as removes the entry. -/
def Memory.write (m : Memory) (a : Nat) (v : Byte) : Memory :=
  if v = Memory.unlisted then m.erase a else Memory.insertCell a v (m.erase a)

/-- The canonical form: addresses of the 256-byte space, strictly rising, none listed with the unlisted value. -/
abbrev Memory.wf (m : Memory) : Prop :=
  m.Pairwise (fun c d => c.1 < d.1) ∧ ∀ c ∈ m, c.1 < Config.memSize ∧ c.2 ≠ Memory.unlisted

/-! ### The memory port (R66) -/

/-- `MemRead(addr, 1)` (R17). An address is a byte, so it is in range (R63). -/
def memRead (s : State) (addr : Byte) : Byte := s.mem.read addr.toNat

/-- `MemWrite(addr, 1, v)` (R17). -/
def memWrite (s : State) (addr v : Byte) : State := { s with mem := s.mem.write addr.toNat v }

/-- Write bytes at successive addresses from `addr`, modulo 256 (R63). -/
def writeBytes : List Byte → Byte → State → State
  | [], _, s => s
  | b :: bytes, addr, s => writeBytes bytes (wrap8 (addr.toNat + 1)) (memWrite s addr b)

/-! ### Registers, program counter, output, run state -/

/-- `x[i]` (R15). No register is hardwired (R33). -/
def readReg (s : State) (i : Fin 8) : Byte := s.regs[i.val]

/-- `x[i] <- v` (R15). -/
def writeReg (s : State) (i : Fin 8) (v : Byte) : State := { s with regs := s.regs.set i.val v }

/-- SP_INDEX: R7 is the stack pointer (R10, R32). -/
def spIndex : Fin 8 := 7

/-- `SP`, another name for `x[7]` (R15). -/
def sp (s : State) : Byte := readReg s spIndex

/-- `pc <- t` (R16). -/
def setPc (s : State) (t : Byte) : State := { s with pc := t }

/-- `wrap8(pc + n)`: the address `n` bytes after the opcode (R39, R63). -/
def pcPlus (s : State) (n : Nat) : Byte := wrap8 (s.pc.toNat + n)

/-- `pc <- wrap8(pc + w)`, by an instruction of width `w` that is no control transfer (R123). -/
def advance (w : Nat) (s : State) : State := setPc s (pcPlus s w)

/-- `emit Out(v)`: append to the output log (R20, R49). -/
def emitOut (s : State) (v : Byte) : State := { s with out := s.out ++ [v] }

/-- `status <- Halted` (R20). -/
def halt (s : State) : State := { s with status := .halted }

/-- `raise K(info)`: the one way a fatal error is taken. It writes `status` and nothing else; `pc` still holds the
address of the faulting opcode, and IR was written by the fetch (R20, R203). -/
def raiseFault (kind : FaultKind) (info : Byte) (s : State) : State :=
  { s with status := .faulted kind s.pc info }

/-! ### The call stack (R70) -/

/-- `x[7] <- wrap8(x[7] - 1)` (R170). -/
def decSp (s : State) : State := writeReg s spIndex (wrap8 ((sp s).toNat - 1))

/-- `x[7] <- wrap8(x[7] + 1)` (R172). -/
def incSp (s : State) : State := writeReg s spIndex (wrap8 ((sp s).toNat + 1))

/-- `MemWrite(x[7], 1, v)` (R170). -/
def storeTop (s : State) (v : Byte) : State := memWrite s (sp s) v

/-- `MemRead(x[7], 1)` (R172). -/
def loadTop (s : State) : Byte := memRead s (sp s)

end Sys2Proof.Machine
end

