-- ==== Sys2Proof/Machine/Operands.lean ====
section
/-! DEFINITION. The one operand form that needs a check: a register-index operand byte (R96). The other form, LDI's
immediate, is the operand byte as it stands (R97). -/

namespace Sys2Proof.Machine

/-- `RegIdx(r)`: the register an operand byte names, none when it is 8 or more (R15). -/
def regIdx (r : Byte) : Option (Fin 8) := if h : r.toNat < 8 then some ⟨r.toNat, h⟩ else none

/-- Use the register an operand byte names, or raise RegisterIndexFault with that byte (R15, R204). -/
def withReg (r : Byte) (s : State) (k : Fin 8 → State) : State :=
  match regIdx r with
  | some i => k i
  | none => raiseFault .registerIndexFault r s

/-- Use the registers two operand bytes name, opA checked before opB, both before anything is written (R208). -/
def withRegs (a b : Byte) (s : State) (k : Fin 8 → Fin 8 → State) : State :=
  withReg a s fun i => withReg b s fun j => k i j

end Sys2Proof.Machine
end

