-- ==== Sys2Proof/Machine/Flags.lean ====
section
/-! DEFINITION. The flags byte: its one computation (equality, R152), its one write (R42) and its one read (R43). -/

namespace Sys2Proof.Machine

/-- `alu_eq(u, v)`: 0x01 if equal, else 0x00 (R152). -/
def aluEq (u v : Byte) : Byte := if u = v then 0x01 else 0x00

/-- `FL <- v`, the whole byte (R42). -/
def setFl (s : State) (v : Byte) : State := { s with fl := v }

/-- `E = FL[0]` (R41). -/
def eqBit (s : State) : Bool := s.fl.getLsbD 0

end Sys2Proof.Machine
end

