-- ==== Sys2Proof/Machine/Alu.lean ====
section
/-! DEFINITION. The ALU and its instructions ADD, MUL and CMP (42_alu.md). -/

namespace Sys2Proof.Machine

/-- The ALU's operation input (R150). The operation set is ADD, MUL and CMP; any other code is `other`, which no
instruction passes (R151; DESIGN CHOICE for its form as a byte, log entry 11). -/
inductive AluOp where
  | add
  | mul
  | cmp
  | other (code : Byte)
  deriving DecidableEq, Repr

/-- What the ALU answers: a value for `x[a]`, a value for `FL`, or the error of R151. -/
inductive AluResult where
  | toRegister (v : Byte)
  | toFlags (v : Byte)
  | unsupported (code : Byte)
  deriving DecidableEq, Repr

/-- `alu_add(u, v)` (R152). -/
def aluAdd (u v : Byte) : Byte := wrap8 (u.toNat + v.toNat)

/-- `alu_mul(u, v)` (R152). -/
def aluMul (u v : Byte) : Byte := wrap8 (u.toNat * v.toNat)

/-- The combinational unit: total, without state of its own (R150, R151). -/
def alu (op : AluOp) (u v : Byte) : AluResult :=
  match op with
  | .add => .toRegister (aluAdd u v)
  | .mul => .toRegister (aluMul u v)
  | .cmp => .toFlags (aluEq u v)
  | .other code => .unsupported code

/-- `apply(op, opA, opB)` as the execution of an ALU instruction: both registers read before the write, then the
result written and the pc advanced by 3 (R150, R153, R155, R156, R158), or the fatal error of R205. DESIGN CHOICE (log
entry 17), safe: for an operation outside ADD, MUL and CMP, which no instruction passes, the two operands are checked
before the operation, so that an operand of 8 or more raises RegisterIndexFault and not UnsupportedALUOperation; R208 gives
the latter no place in its order. -/
def aluApply (op : AluOp) (opA opB : Byte) (s : State) : State :=
  withRegs opA opB s fun a b =>
    match alu op (readReg s a) (readReg s b) with
    | .toRegister v => advance 3 (writeReg s a v)
    | .toFlags v => advance 3 (setFl s v)
    | .unsupported code => raiseFault .unsupportedALUOperation code s

/-- ADD Ra,Rb (R153). -/
def execAdd (opA opB : Byte) (s : State) : Host.Outcome State Fault Refusal := .next (aluApply .add opA opB s)

/-- MUL Ra,Rb (R155). -/
def execMul (opA opB : Byte) (s : State) : Host.Outcome State Fault Refusal := .next (aluApply .mul opA opB s)

/-- CMP Ra,Rb (R156). -/
def execCmp (opA opB : Byte) (s : State) : Host.Outcome State Fault Refusal := .next (aluApply .cmp opA opB s)

end Sys2Proof.Machine
end

