-- ==== Sys2Proof/Machine/Branch.lean ====
section
/-! DEFINITION. JMP, JEQ and JNE (45_branch.md). -/

namespace Sys2Proof.Machine

/-- `pc <- x[opA]`, the effect of a jump (R190). -/
def jumpTo (opA : Byte) (s : State) : State := withReg opA s fun a => setPc s (readReg s a)

/-- JMP Ra (R190). -/
def execJmp (opA : Byte) (s : State) : Host.Outcome State Fault Refusal := .next (jumpTo opA s)

/-- JEQ Ra (R191): not taken, no register is read and the operand is not checked. -/
def execJeq (opA : Byte) (s : State) : Host.Outcome State Fault Refusal :=
  .next (if eqBit s then jumpTo opA s else advance 2 s)

/-- JNE Ra (R192): not taken, no register is read and the operand is not checked. -/
def execJne (opA : Byte) (s : State) : Host.Outcome State Fault Refusal :=
  .next (if eqBit s then advance 2 s else jumpTo opA s)

end Sys2Proof.Machine
end

