-- ==== Sys2Proof/Machine/CallReturn.lean ====
section
/-! DEFINITION. CALL and RET (44_call_return.md). The effects stand in the order the rules list them (R21). -/

namespace Sys2Proof.Machine

/-- Push the return address `wrap8(pc + 2)` (R180, R181). -/
def pushReturn (s : State) : State := storeTop (decSp s) (pcPlus s 2)

/-- CALL Ra (R180): the target is read after the push, which shows for R7. -/
def execCall (opA : Byte) (s : State) : Host.Outcome State Fault Refusal :=
  .next (withReg opA s fun a => setPc (pushReturn s) (readReg (pushReturn s) a))

/-- RET (R182). -/
def execRet (s : State) : Host.Outcome State Fault Refusal := .next (incSp (setPc s (loadTop s)))

end Sys2Proof.Machine
end

