-- ==== Sys2Proof/Machine/Stack.lean ====
section
/-! DEFINITION. PUSH and POP (43_stack.md). The effects stand in the order the rules list them (R21). -/

namespace Sys2Proof.Machine

/-- PUSH Ra (R170): the operand is read after the decrement, which shows for R7 (R171). -/
def execPush (opA : Byte) (s : State) : Host.Outcome State Fault Refusal :=
  .next (withReg opA s fun a => advance 2 (storeTop (decSp s) (readReg (decSp s) a)))

/-- POP Ra (R172): the byte is loaded before the increment, which shows for R7 (R173). -/
def execPop (opA : Byte) (s : State) : Host.Outcome State Fault Refusal :=
  .next (withReg opA s fun a => advance 2 (incSp (writeReg s a (loadTop s))))

end Sys2Proof.Machine
end

