-- ==== Sys2Proof/Machine/SystemIo.lean ====
section
/-! DEFINITION. HLT, LDI and PRN (41_system_io.md). -/

namespace Sys2Proof.Machine

/-- HLT (R140). -/
def execHlt (s : State) : Host.Outcome State Fault Refusal := .next (halt s)

/-- LDI Ra,imm (R142); a = 7 writes the stack pointer like any register (R143). -/
def execLdi (opA imm : Byte) (s : State) : Host.Outcome State Fault Refusal :=
  .next (withReg opA s fun a => advance 3 (writeReg s a imm))

/-- PRN Ra (R144). -/
def execPrn (opA : Byte) (s : State) : Host.Outcome State Fault Refusal :=
  .next (withReg opA s fun a => advance 2 (emitOut s (readReg s a)))

end Sys2Proof.Machine
end

