-- ==== Sys2Proof/Syntax.lean ====
section
/-! DEFINITION. The closed instruction set of thirteen instructions (R3, R128): its mnemonics and its instructions. -/

namespace Sys2Proof

/-- The thirteen instruction kinds, in the order of the source's handler table (R3). -/
inductive Mnemonic where
  | hlt | ldi | prn | add | mul | cmp | push | pop | call | ret | jmp | jeq | jne
  deriving DecidableEq, Repr

/-- Every kind once, in the order of R3. -/
def Mnemonic.all : List Mnemonic :=
  [.hlt, .ldi, .prn, .add, .mul, .cmp, .push, .pop, .call, .ret, .jmp, .jeq, .jne]

/-- An instruction with its operand bytes as they stand in memory: an operand is a whole byte (R91), and a byte of 8 or
more is no register (R96), which shows only when the instruction uses it. -/
inductive Instr where
  | hlt                        -- HLT
  | ldi (opA imm : Byte)       -- LDI Ra,imm
  | prn (opA : Byte)           -- PRN Ra
  | add (opA opB : Byte)       -- ADD Ra,Rb
  | mul (opA opB : Byte)       -- MUL Ra,Rb
  | cmp (opA opB : Byte)       -- CMP Ra,Rb
  | push (opA : Byte)          -- PUSH Ra
  | pop (opA : Byte)           -- POP Ra
  | call (opA : Byte)          -- CALL Ra
  | ret                        -- RET
  | jmp (opA : Byte)           -- JMP Ra
  | jeq (opA : Byte)           -- JEQ Ra
  | jne (opA : Byte)           -- JNE Ra
  deriving DecidableEq, Repr

/-- The kind of an instruction (R128). -/
def Instr.mnemonic : Instr → Mnemonic
  | .hlt => .hlt
  | .ldi _ _ => .ldi
  | .prn _ => .prn
  | .add _ _ => .add
  | .mul _ _ => .mul
  | .cmp _ _ => .cmp
  | .push _ => .push
  | .pop _ => .pop
  | .call _ => .call
  | .ret => .ret
  | .jmp _ => .jmp
  | .jeq _ => .jeq
  | .jne _ => .jne

/-- The operand bytes in address order: opA, then opB (R64, R91). -/
def Instr.operands : Instr → List Byte
  | .hlt => []
  | .ldi a b => [a, b]
  | .prn a => [a]
  | .add a b => [a, b]
  | .mul a b => [a, b]
  | .cmp a b => [a, b]
  | .push a => [a]
  | .pop a => [a]
  | .call a => [a]
  | .ret => []
  | .jmp a => [a]
  | .jeq a => [a]
  | .jne a => [a]

/-- The operand bytes that name a register: all of them but LDI's immediate (R91, R96, R97). -/
def Instr.registerOperands : Instr → List Byte
  | .hlt => []
  | .ldi a _ => [a]
  | .prn a => [a]
  | .add a b => [a, b]
  | .mul a b => [a, b]
  | .cmp a b => [a, b]
  | .push a => [a]
  | .pop a => [a]
  | .call a => [a]
  | .ret => []
  | .jmp a => [a]
  | .jeq a => [a]
  | .jne a => [a]

end Sys2Proof
end

