-- ==== Sys2Proof/WellFormed.lean ====
section
/-! DEFINITION. The one check on an instruction as syntax: each register operand names one of the eight registers (R96).
An instruction that fails it still has an encoding, decodes, and has a meaning (R96: it raises RegisterIndexFault when it
uses the operand); so the decoder does not ask for this check, and no statement about decoding or stepping needs it. -/

namespace Sys2Proof

/-- A register operand byte names R0 to R7 (R96). -/
abbrev namesRegister (r : Byte) : Prop := r.toNat < 8

/-- Every register operand of the instruction names a register. -/
abbrev WellFormed (i : Instr) : Prop := ∀ r ∈ i.registerOperands, namesRegister r

end Sys2Proof
end

