-- ==== Sys2Proof/Decode.lean ====
section
/-! DEFINITION. The opcode map, the decoder, the encoder, and the host's numbering of an instruction's bits. The decoder
and the encoder take OPCODE_MAP as an argument (R95); the names without `With` use the default map of R93. -/

namespace Sys2Proof

/-- OPCODE_MAP: the opcode byte of each kind (R95). -/
abbrev OpcodeMap := Mnemonic → Byte

/-- The default OPCODE_MAP of R93. UNVERIFIED (log entry 5), unsafe: only LDI's value is from the source; the spec
supplies the other twelve as its default (D6, K3). -/
def opcodeMap : OpcodeMap
  | .hlt => 0x01
  | .ldi => 0x82
  | .prn => 0x47
  | .add => 0xA0
  | .mul => 0xA2
  | .cmp => 0xA7
  | .push => 0x45
  | .pop => 0x46
  | .call => 0x50
  | .ret => 0x11
  | .jmp => 0x54
  | .jeq => 0x55
  | .jne => 0x56

/-- The length in bytes of an instruction of each kind (R90, R93, R101). -/
def Mnemonic.width : Mnemonic → Nat
  | .hlt => 1
  | .ldi => 3
  | .prn => 2
  | .add => 3
  | .mul => 3
  | .cmp => 3
  | .push => 2
  | .pop => 2
  | .call => 2
  | .ret => 1
  | .jmp => 2
  | .jeq => 2
  | .jne => 2

/-- The kinds as a map may assign them: thirteen distinct bytes with LDI at 0x82 (R95). -/
def OpcodeMap.Admissible (map : OpcodeMap) : Prop :=
  (∀ m n : Mnemonic, map m = map n → m = n) ∧ map .ldi = 0x82

/-- The source's convention that R95 asks for in addition: bits 7:6 are the operand count (R92). -/
def OpcodeMap.CountsOperands (map : OpcodeMap) : Prop :=
  ∀ m : Mnemonic, (map m).toNat / 64 = m.width - 1

/-- Why a list of bytes holds no instruction. Only `unknownOpcode` can arise in a step, which always supplies the
operand bytes (log entry 16). -/
inductive DecodeError where
  | noBytes                            -- the list is empty
  | unknownOpcode (op : Byte)          -- the byte is no value of the opcode map (R99)
  | missingOperand (m : Mnemonic)      -- the list ends inside the instruction
  deriving DecidableEq, Repr

/-- Decode of the opcode byte: an exact match of the whole byte against the map (R94). -/
def mnemonicOf (map : OpcodeMap) (op : Byte) : Option Mnemonic :=
  Mnemonic.all.find? fun m => map m == op

/-- Format `R`: one operand byte follows (R91). -/
def takeOne (m : Mnemonic) (mk : Byte → Instr) : List Byte → Except DecodeError (Instr × List Byte)
  | a :: rest => .ok (mk a, rest)
  | [] => .error (.missingOperand m)

/-- Formats `RR` and `RI`: two operand bytes follow (R91). -/
def takeTwo (m : Mnemonic) (mk : Byte → Byte → Instr) : List Byte → Except DecodeError (Instr × List Byte)
  | a :: b :: rest => .ok (mk a b, rest)
  | [_] => .error (.missingOperand m)
  | [] => .error (.missingOperand m)

/-- The operands of each kind, by its format (R91). -/
def decodeOperands (m : Mnemonic) (bytes : List Byte) : Except DecodeError (Instr × List Byte) :=
  match m with
  | .hlt => .ok (.hlt, bytes)
  | .ldi => takeTwo m .ldi bytes
  | .prn => takeOne m .prn bytes
  | .add => takeTwo m .add bytes
  | .mul => takeTwo m .mul bytes
  | .cmp => takeTwo m .cmp bytes
  | .push => takeOne m .push bytes
  | .pop => takeOne m .pop bytes
  | .call => takeOne m .call bytes
  | .ret => .ok (.ret, bytes)
  | .jmp => takeOne m .jmp bytes
  | .jeq => takeOne m .jeq bytes
  | .jne => takeOne m .jne bytes

/-- The instruction at the head of a list of bytes and the bytes after it (R90, R94). -/
def decodeWith (map : OpcodeMap) : List Byte → Except DecodeError (Instr × List Byte)
  | [] => .error .noBytes
  | op :: rest =>
    match mnemonicOf map op with
    | none => .error (.unknownOpcode op)
    | some m => decodeOperands m rest

/-- The decoder under the default map (R93). -/
def decode (bytes : List Byte) : Except DecodeError (Instr × List Byte) := decodeWith opcodeMap bytes

/-- The bytes of an instruction: its opcode, then its operands (R64, R91). -/
def encodeWith (map : OpcodeMap) (i : Instr) : List Byte := map i.mnemonic :: i.operands

/-- The encoder under the default map (R93). -/
def encode (i : Instr) : List Byte := encodeWith opcodeMap i

/-- The three bytes of an instruction whose bits are numbered as spec/opcode_table.json numbers them: byte k is bits
8k+7 down to 8k, and every bit above `nbits` is 0. -/
def tableBytes (nbits w : Nat) : List Byte :=
  let v := w % 2 ^ nbits
  [BitVec.ofNat 8 v, BitVec.ofNat 8 (v / 256), BitVec.ofNat 8 (v / 65536)]

/-- What the decoder reads from an instruction given in the table's numbering. -/
def decodeTableWord (nbits w : Nat) : Option Instr :=
  match decode (tableBytes nbits w) with
  | .ok (i, _) => some i
  | .error _ => none

end Sys2Proof
end

