-- ==== Sys2Proof/Machine/Fetch.lean ====
section
/-! DEFINITION. The fetch of a step: the opcode into IR, then the operand bytes the instruction's width includes, in
address order, before anything is written (R66, R67, R122). -/

namespace Sys2Proof.Machine

/-- `MemRead(pc, 1)`: the opcode byte (R122). -/
def fetchOpcode (s : State) : Byte := memRead s s.pc

/-- `IR <- MemRead(pc, 1)` (R122). -/
def latchIr (s : State) : State := { s with ir := fetchOpcode s }

/-- The `n` bytes after the opcode, at `wrap8(pc + 1)` and on (R19, R66). -/
def operandBytes (s : State) (n : Nat) : List Byte :=
  (List.range n).map fun k => memRead s (pcPlus s (k + 1))

/-- The bytes of the instruction at `pc`: the opcode alone when the map has no such opcode (R202), else as many as its
width (R67). -/
def fetchBytesWith (map : OpcodeMap) (s : State) : List Byte :=
  match mnemonicOf map (fetchOpcode s) with
  | none => [fetchOpcode s]
  | some m => fetchOpcode s :: operandBytes s (m.width - 1)

/-- The fetch under the default map. -/
def fetchBytes (s : State) : List Byte := fetchBytesWith opcodeMap s

end Sys2Proof.Machine
end

