-- ==== Sys2Proof/Machine/Run.lean ====
section
/-! DEFINITION. The dispatcher's step under any opcode map (R95, R122, R125). -/

namespace Sys2Proof.Machine

/-- One whole instruction while Running: fetch into IR, decode, then execute or raise UnknownInstruction with the opcode
byte (R122, R202). In any other run state no step happens and nothing changes (R125; log entry 1). -/
def stepWith (map : OpcodeMap) (s : State) : Host.Outcome State Fault Refusal :=
  match s.status with
  | .running =>
    match decodeWith map (fetchBytesWith map s) with
    | .ok (i, _) => exec i (latchIr s)
    | .error _ => .next (raiseFault .unknownInstruction (latchIr s).ir (latchIr s))
  | .idle => .next s
  | .halted => .next s
  | .faulted _ _ _ => .next s

end Sys2Proof.Machine
end

