-- ==== Sys2Proof/Machine/Step.lean ====
section
/-! DEFINITION. The step of the core under the default opcode map (R93, R122), and where the host places an instruction. -/

namespace Sys2Proof.Machine

/-- One step of the core. -/
def step (s : State) : Host.Outcome State Fault Refusal := stepWith opcodeMap s

/-- `s` Running, with the instruction of the table's numbering stored at `pc` on: it stands for the load of that
instruction and for `start` (R231; log entry 7). -/
def State.withFetchWord (s : State) (nbits w : Nat) : State :=
  writeBytes (tableBytes nbits w) s.pc { s with status := .running }

end Sys2Proof.Machine
end

