-- ==== Sys2Proof/Machine/Launch.lean ====
section
/-! DEFINITION. The host's side before a run, at the interface the core consumes (R6, R12): the load image and its text
format (R236), the load errors (R206), `load` and `start` (R121, R231). -/

namespace Sys2Proof.Machine

/-- The load errors of R206. They end the launch before the core starts; they are no faults of the core. -/
inductive LoadError where
  | argumentCount     -- wrong argument count
  | fileNotFound
  | badLiteral        -- a line that is not a base-2 literal of at most 255
  | imageTooLong      -- more than 256 bytes
  deriving DecidableEq, Repr

/-- What the host is launched with: no usable argument, a file that is missing, or a file as its lines of text. -/
inductive LaunchSource where
  | wrongArgumentCount
  | missingFile
  | file (lines : List (List Char))
  deriving DecidableEq, Repr

/-- White space around a token (DESIGN CHOICE for the set, log entry 9). -/
def isBlank (c : Char) : Bool := c == ' ' || c == '\t' || c == '\r'

/-- The token of a line: what stands before a `#`, without the white space around it (R236). -/
def lineToken (line : List Char) : List Char :=
  (((line.takeWhile fun c => c != '#').dropWhile isBlank).reverse.dropWhile isBlank).reverse

/-- A base-2 literal read from its most significant digit, none for any other character (R236). -/
def parseBits : List Char → Nat → Option Nat
  | [], v => some v
  | c :: cs, v =>
    if c == '0' then parseBits cs (2 * v)
    else if c == '1' then parseBits cs (2 * v + 1)
    else none

/-- One line: nothing for a blank or comment line, one byte for a literal of at most 255, else the load error (R236). -/
def parseLine (line : List Char) : Except LoadError (Option Byte) :=
  match lineToken line with
  | [] => .ok none
  | c :: cs =>
    match parseBits (c :: cs) 0 with
    | some v => if v < 256 then .ok (some (BitVec.ofNat 8 v)) else .error .badLiteral
    | none => .error .badLiteral

/-- The bytes of the lines, in order (R236). -/
def parseLines : List (List Char) → Except LoadError (List Byte)
  | [] => .ok []
  | line :: lines =>
    match parseLine line with
    | .error e => .error e
    | .ok none => parseLines lines
    | .ok (some b) =>
      match parseLines lines with
      | .error e => .error e
      | .ok bytes => .ok (b :: bytes)

/-- The load image, or the load error (R206, R236). -/
def readImage : LaunchSource → Except LoadError (List Byte)
  | .wrongArgumentCount => .error .argumentCount
  | .missingFile => .error .fileNotFound
  | .file lines =>
    match parseLines lines with
    | .error e => .error e
    | .ok image => if image.length ≤ Config.memSize then .ok image else .error .imageTooLong

/-- `load(image)`: write the bytes from address 0x00 while the core is Idle (R12, R235, R236). In another run state it
does nothing (DESIGN CHOICE, log entry 8). -/
def loadImage (image : List Byte) (s : State) : State :=
  match s.status with
  | .idle => writeBytes image 0x00 s
  | .running => s
  | .halted => s
  | .faulted _ _ _ => s

/-- `start`: Idle to Running; in any other run state it has no effect (R121). -/
def start (s : State) : State :=
  match s.status with
  | .idle => { s with status := .running }
  | .running => s
  | .halted => s
  | .faulted _ _ _ => s

/-- Load and start, or the load error that ends the launch with the core as it was (R206, R231). -/
def launch (source : LaunchSource) (s : State) : State × Option LoadError :=
  match readImage source with
  | .ok image => (start (loadImage image s), none)
  | .error e => (s, some e)

end Sys2Proof.Machine
end

