-- ==== Sys2Proof/Machine/Observe.lean ====
section
/-! DEFINITION. What the host observes of the core: the printed output (R145), the trace payload (R218), the process exit
status (R207), and an instruction's text (R102). Observing changes no state. -/

namespace Sys2Proof.Machine

/-- A digit's character. -/
def digitChar (d : Nat) : Char := Char.ofNat (if d < 10 then 48 + d else 55 + d)

/-- The decimal numeral of a byte: no sign, no padding (R145). -/
def decimal (v : Byte) : List Char :=
  let n := v.toNat
  if n < 10 then [digitChar n]
  else if n < 100 then [digitChar (n / 10), digitChar (n % 10)]
  else [digitChar (n / 100), digitChar (n / 10 % 10), digitChar (n % 10)]

/-- The printed output: each value in decimal followed by the host's separator, the open parameter OUT_RENDER (R145). -/
def renderOut (separator : List Char) (out : List Byte) : List Char :=
  out.flatMap fun v => decimal v ++ separator

/-- Two uppercase hexadecimal digits (R218). -/
def hex2 (v : Byte) : List Char := [digitChar (v.toNat / 16), digitChar (v.toNat % 16)]

/-- The trace payload of R218: pc, the three memory bytes at pc, the eight registers. -/
def tracePayload (s : State) : List Byte :=
  [s.pc, memRead s s.pc, memRead s (pcPlus s 1), memRead s (pcPlus s 2)] ++ s.regs.toList

/-- The trace's fields as text; the separators between them are the host's (R218, log entry 15). -/
def traceFields (s : State) : List (List Char) := (tracePayload s).map hex2

/-- The ways a launch ends (R206, R207). -/
inductive EndCause where
  | normalHalt
  | fatal (kind : FaultKind)
  | load (e : LoadError)
  deriving DecidableEq, Repr

/-- The open parameter EXIT_CODES (R207). -/
abbrev ExitCodes := EndCause → Nat

/-- The constraint of R207: every failure kind has a non-zero status, and no two ways to end share one. -/
def ExitCodes.Admissible (codes : ExitCodes) : Prop :=
  (∀ c, c ≠ .normalHalt → codes c ≠ 0) ∧ ∀ c d, codes c = codes d → c = d

/-- How a run of the core ended, none while it has not (R127). -/
def runEnd (s : State) : Option EndCause :=
  match s.status with
  | .idle => none
  | .running => none
  | .halted => some .normalHalt
  | .faulted kind _ _ => some (.fatal kind)

/-- How the process ended: by the load error its launch reported, which ends it before the core starts (R206), else as the
run of the core ended (R127). -/
def endCause (loadError : Option LoadError) (s : State) : Option EndCause :=
  match loadError with
  | some e => some (.load e)
  | none => runEnd s

/-- The process exit status (R207), from what the launch reported and the core's state; none while nothing has ended. -/
def exitStatus (codes : ExitCodes) (loadError : Option LoadError) (s : State) : Option Nat :=
  (endCause loadError s).map codes

/-- The exit status right after a launch: that of its load error, none when the core was started (R206, R207, R231). -/
def launchStatus (codes : ExitCodes) (source : LaunchSource) (s : State) : Option Nat :=
  exitStatus codes (launch source s).2 (launch source s).1

/-- The number of a fault kind (R201). -/
def FaultKind.number : FaultKind → Nat
  | .unknownInstruction => 1
  | .registerIndexFault => 2
  | .unsupportedALUOperation => 3

/-- A mnemonic as the spec spells it (R3). -/
def mnemonicText : Mnemonic → String
  | .hlt => "HLT"
  | .ldi => "LDI"
  | .prn => "PRN"
  | .add => "ADD"
  | .mul => "MUL"
  | .cmp => "CMP"
  | .push => "PUSH"
  | .pop => "POP"
  | .call => "CALL"
  | .ret => "RET"
  | .jmp => "JMP"
  | .jeq => "JEQ"
  | .jne => "JNE"

/-- A register operand as text (R102); one of 8 or more is written the same way (95_test_vectors.md). -/
def registerText (r : Byte) : String := "R" ++ String.ofList (decimal r)

/-- The operands as text: comma-separated, immediates in decimal (R102). -/
def operandText : Instr → String
  | .hlt => ""
  | .ldi a imm => " " ++ registerText a ++ "," ++ String.ofList (decimal imm)
  | .prn a => " " ++ registerText a
  | .add a b => " " ++ registerText a ++ "," ++ registerText b
  | .mul a b => " " ++ registerText a ++ "," ++ registerText b
  | .cmp a b => " " ++ registerText a ++ "," ++ registerText b
  | .push a => " " ++ registerText a
  | .pop a => " " ++ registerText a
  | .call a => " " ++ registerText a
  | .ret => ""
  | .jmp a => " " ++ registerText a
  | .jeq a => " " ++ registerText a
  | .jne a => " " ++ registerText a

/-- An instruction in the spec's assembler text (R102). -/
def instrText (i : Instr) : String := mnemonicText i.mnemonic ++ operandText i

end Sys2Proof.Machine
end

