-- ==== Sys2Proof/Safety.lean ====
section
/-! DEFINITION. The terms claims are stated in: which registers, which byte of memory an instruction may read or change
(R33, R62), which instructions a region of memory holds, and the invariant of the machine. -/

namespace Sys2Proof.Machine

/-- The operand byte that names a register (R96). -/
def regByte (i : Fin 8) : Byte := BitVec.ofNat 8 i.val

/-- The registers an instruction may write: the table of R33. -/
def writesReg (i : Instr) (k : Fin 8) : Prop :=
  match i with
  | .hlt => False
  | .ldi a _ => regIdx a = some k
  | .prn _ => False
  | .add a _ => regIdx a = some k
  | .mul a _ => regIdx a = some k
  | .cmp _ _ => False
  | .push _ => k = spIndex
  | .pop a => regIdx a = some k ∨ k = spIndex
  | .call _ => k = spIndex
  | .ret => k = spIndex
  | .jmp _ => False
  | .jeq _ => False
  | .jne _ => False

/-- The registers an instruction may read, JEQ and JNE only when taken: the table of R33. -/
def readsReg (i : Instr) (s : State) (k : Fin 8) : Prop :=
  match i with
  | .hlt => False
  | .ldi _ _ => False
  | .prn a => regIdx a = some k
  | .add a b => regIdx a = some k ∨ regIdx b = some k
  | .mul a b => regIdx a = some k ∨ regIdx b = some k
  | .cmp a b => regIdx a = some k ∨ regIdx b = some k
  | .push a => k = spIndex ∨ regIdx a = some k
  | .pop _ => k = spIndex
  | .call a => k = spIndex ∨ regIdx a = some k
  | .ret => k = spIndex
  | .jmp a => regIdx a = some k
  | .jeq a => eqBit s = true ∧ regIdx a = some k
  | .jne a => eqBit s = false ∧ regIdx a = some k

/-- The one address an instruction stores to: the new stack pointer, for PUSH and CALL whose operand names a register
(R62, R170, R180). -/
def storeAddr (i : Instr) (s : State) : Option Byte :=
  match i with
  | .hlt => none
  | .ldi _ _ => none
  | .prn _ => none
  | .add _ _ => none
  | .mul _ _ => none
  | .cmp _ _ => none
  | .push a => (regIdx a).map fun _ => sp (decSp s)
  | .pop _ => none
  | .call a => (regIdx a).map fun _ => sp (decSp s)
  | .ret => none
  | .jmp _ => none
  | .jeq _ => none
  | .jne _ => none

/-- Memory holds these bytes from `pc` on, addresses taken modulo 256 (R63, R90). -/
def holdsAtPc (s : State) (bytes : List Byte) : Prop :=
  ∀ (k : Nat) (h : k < bytes.length), memRead s (pcPlus s k) = bytes[k]

/-- What a run state records of how it was entered (R121, R203): Halted stands on a HLT; a fault names the address in
`pc`, and its info byte is the unknown opcode, or an operand byte of 8 or more, of the instruction there; the ALU's fault
never occurs (R205). -/
def statusLegal (s : State) : Prop :=
  match s.status with
  | .idle => True
  | .running => True
  | .halted => fetchOpcode s = opcodeMap .hlt
  | .faulted .unknownInstruction p info => p = s.pc ∧ info = fetchOpcode s ∧ mnemonicOf opcodeMap info = none
  | .faulted .registerIndexFault p info => p = s.pc ∧ 8 ≤ info.toNat ∧ info ∈ operandBytes s 2
  | .faulted .unsupportedALUOperation _ _ => False

/-- The invariant of the machine: canonical memory, the unused bits of FL zero (R42), a legal run state. -/
def State.Inv (s : State) : Prop :=
  Memory.wf s.mem ∧ (s.fl = 0x00 ∨ s.fl = 0x01) ∧ statusLegal s

/-- `n` steps of the core (R127: a run is counted in steps as fuel only). -/
def run (n : Nat) (s : State) : Host.Outcome State Fault Refusal := Host.Core.run Sys2Proof.core n s

/-- The pc after an instruction whose used register operands name registers: the table of R38. -/
def nextPc (i : Instr) (s : State) : Byte :=
  let target (a : Byte) (x : State) : Byte := ((regIdx a).map fun r => readReg x r).getD x.pc
  match i with
  | .hlt => s.pc
  | .ldi _ _ => s.pc + 3
  | .prn _ => s.pc + 2
  | .add _ _ => s.pc + 3
  | .mul _ _ => s.pc + 3
  | .cmp _ _ => s.pc + 3
  | .push _ => s.pc + 2
  | .pop _ => s.pc + 2
  | .call a => target a (decSp s)
  | .ret => memRead s (sp s)
  | .jmp a => target a s
  | .jeq a => if s.fl.getLsbD 0 then target a s else s.pc + 2
  | .jne a => if s.fl.getLsbD 0 then s.pc + 2 else target a s

end Sys2Proof.Machine
end

