-- ==== Sys2Proof/Certificates/Slice0/Obligations.lean ====
section
/-! DEFINITION. The statements for the provers. Each docstring names the rule of spec/ it formalises; where a clause rests
on a decision or an inference that the spec marks as its own, or on a log entry of this model, the docstring says so. -/

open Sys2Proof Sys2Proof.Machine

/-! ### Encoding -/

/-- R93's table and R101's widths: the opcode and the length of each kind, bits 7:6 of the opcode being the operand count
(R92). The twelve opcodes other than LDI's are the spec's default (decision D6, log entry 5). -/
def Obligations.OpcodeTableValues : Prop :=
  (opcodeMap .hlt = 0x01 ∧ opcodeMap .ldi = 0x82 ∧ opcodeMap .prn = 0x47 ∧ opcodeMap .add = 0xA0 ∧
    opcodeMap .mul = 0xA2 ∧ opcodeMap .cmp = 0xA7 ∧ opcodeMap .push = 0x45 ∧ opcodeMap .pop = 0x46 ∧
    opcodeMap .call = 0x50 ∧ opcodeMap .ret = 0x11 ∧ opcodeMap .jmp = 0x54 ∧ opcodeMap .jeq = 0x55 ∧
    opcodeMap .jne = 0x56) ∧
  (∀ i : Instr, (encode i).length = i.mnemonic.width ∧ (encode i).length ≤ 3) ∧
  opcodeMap.CountsOperands

/-- Words written out from the rows of R93 and the formats of R91, one for each family, decode to the instructions they
stand for (opcodes: decision D6, log entry 5). -/
def Obligations.WrittenOutWordsDecode : Prop :=
  decode [0b00000001] = .ok (.hlt, []) ∧
  decode [0b10000010, 0x00, 0x08] = .ok (.ldi 0 8, []) ∧
  decode [0b01000111, 0x07, 0x01] = .ok (.prn 7, [0x01]) ∧
  decode [0b10100000, 0x09, 0x0A] = .ok (.add 9 10, []) ∧
  decode [0b10100111, 0x02, 0x03] = .ok (.cmp 2 3, []) ∧
  decode [0b01000110, 0xC8] = .ok (.pop 200, []) ∧
  decode [0b00010001] = .ok (.ret, []) ∧
  decode [0b01010110, 0x03] = .ok (.jne 3, [])

/-- Decode of encode is the instruction, with every operand at every byte, and leaves the bytes after it, for every opcode
map that R95 admits (decision D6). -/
def Obligations.DecodeOfEncodeIsTheInstruction : Prop :=
  ∀ (map : OpcodeMap), map.Admissible → ∀ (i : Instr) (rest : List Byte),
    decodeWith map (encodeWith map i ++ rest) = .ok (i, rest)

/-- Whatever decodes is the encoding of what it decodes to, under any map: no bit of the bytes is dropped (R91, R94). -/
def Obligations.EncodeOfDecodeIsTheBytes : Prop :=
  ∀ (map : OpcodeMap) (bytes rest : List Byte) (i : Instr),
    decodeWith map bytes = .ok (i, rest) → bytes = encodeWith map i ++ rest

/-- R99: an opcode byte outside the thirteen raises UnknownInstruction with that byte; 243 bytes are such, 0x00 among
them. -/
def Obligations.IllegalOpcodeRaisesUnknownInstruction : Prop :=
  let legal : List Byte := [0x01, 0x11, 0x45, 0x46, 0x47, 0x50, 0x54, 0x55, 0x56, 0x82, 0xA0, 0xA2, 0xA7]
  (∀ s : State, s.status = .running → memRead s s.pc ∉ legal →
    step s = .next { s with ir := memRead s s.pc, status := .faulted .unknownInstruction s.pc (memRead s s.pc) }) ∧
  ((List.range 256).filter fun n => BitVec.ofNat 8 n ∉ legal).length = 243 ∧ (0x00 : Byte) ∉ legal

/-! ### The step -/

/-- R122: when the bytes fetched at `pc` decode to an instruction, a step while Running is that instruction executed on the
state with IR latched. -/
def Obligations.StepRunsTheDecodedInstruction : Prop :=
  ∀ (s : State) (i : Instr) (rest : List Byte), s.status = .running → decode (fetchBytes s) = .ok (i, rest) →
    step s = exec i { s with ir := memRead s s.pc }

/-- R122 with R63, R90 and R95: when memory holds the encoding of any instruction from `pc` on, addresses modulo 256, a
step while Running executes that instruction, under every opcode map R95 admits and in particular the default one. -/
def Obligations.StepRunsTheEncodedInstruction : Prop :=
  (∀ (map : OpcodeMap) (s : State) (i : Instr), map.Admissible → s.status = .running →
    holdsAtPc s (encodeWith map i) → stepWith map s = exec i { s with ir := map i.mnemonic }) ∧
  (∀ (s : State) (i : Instr), s.status = .running → holdsAtPc s (encode i) →
    step s = exec i { s with ir := opcodeMap i.mnemonic })

/-- R125, over any number of steps: outside Running nothing changes. That a step there answers the same state, and does not
end the model's run with a fault, is the model's choice (log entry 1). -/
def Obligations.NoStepOutsideRunning : Prop :=
  ∀ (n : Nat) (s : State), s.status = .idle ∨ s.status = .halted ∨ (∃ k p b, s.status = .faulted k p b) →
    run n s = .next s

/-- A step always has a next state, under every opcode map: no access faults (R63), every fatal error is a run state
(R20, R203), and outside Running the state stays (log entry 1: the model's choice). -/
def Obligations.EveryStepHasANextState : Prop :=
  ∀ (map : OpcodeMap) (s : State), ∃ t, stepWith map s = .next t

/-- R121's transitions (decision D10), for a step and for `start`. -/
def Obligations.RunStateTransitions : Prop :=
  (∀ s t : State, step s = .next t → s.status = .running →
    (memRead s s.pc = 0x01 → t.status = .halted) ∧
    (memRead s s.pc ≠ 0x01 → t.status = .running ∨ ∃ k b, t.status = .faulted k s.pc b)) ∧
  (∀ s : State, s.status = .idle → start s = { s with status := .running }) ∧
  (∀ s : State, s.status ≠ .idle → start s = s)

/-- R203 (decision D11): a step that faults writes IR and the run state and nothing else, and records the address of the
faulting opcode. -/
def Obligations.FaultIsPrecise : Prop :=
  ∀ (s t : State) (k : FaultKind) (p b : Byte), s.status = .running → step s = .next t →
    t.status = .faulted k p b →
    t = { s with ir := memRead s s.pc, status := .faulted k s.pc b }

/-- R67 and R238 (decision D14): a CALL whose return address overwrites its own operand byte still jumps through the
register the old byte named. -/
def Obligations.OperandIsReadBeforeOwnStackWrite : Prop :=
  ∀ (s : State) (a : Fin 8), s.status = .running → holdsAtPc s [0x50, regByte a] → a ≠ 7 →
    readReg s 7 - 1 = s.pc + 1 →
    ∃ t, step s = .next t ∧ t.status = .running ∧ t.pc = readReg s a ∧ memRead t (s.pc + 1) = s.pc + 2

/-- R74 (decision D13): a byte pushed onto the address of the next opcode is the opcode the next step fetches; the byte that
PUSH R7 pushes is the decremented SP (decision D5). -/
def Obligations.FetchSeesThePushedByte : Prop :=
  ∀ (s : State) (a : Fin 8), s.status = .running → holdsAtPc s [0x45, regByte a] →
    readReg s 7 - 1 = s.pc + 2 →
    ∃ t u, step s = .next t ∧ t.pc = s.pc + 2 ∧ step t = .next u ∧
      u.ir = if a = 7 then readReg s 7 - 1 else readReg s a

/-! ### Instructions: the whole of each rule -/

/-- R140, HLT. -/
def Obligations.HltHaltsWithPcUnchanged : Prop :=
  encode .hlt = [0x01] ∧
  (∀ s : State, exec .hlt s = .next { s with status := .halted } ∧
    ∀ n u, run n { s with status := .halted } = .next u → u = { s with status := .halted }) ∧
  (∀ (i : Instr) (s t : State), exec i s = .next t → t.status = .halted → s.status = .halted ∨ i = .hlt)

/-- R142, LDI: every register, R7 included, takes the immediate as it stands; an index of 8 or more faults; an LDI at 0xFE
takes its immediate from address 0x00. -/
def Obligations.LdiLoadsTheImmediate : Prop :=
  (∀ a imm : Byte, encode (.ldi a imm) = [0x82, a, imm]) ∧
  (∀ (s : State) (a : Fin 8) (imm : Byte),
    exec (.ldi (regByte a) imm) s = .next { s with regs := s.regs.set a.val imm, pc := s.pc + 3 }) ∧
  (∀ (s : State) (r imm : Byte), 8 ≤ r.toNat →
    exec (.ldi r imm) s = .next { s with status := .faulted .registerIndexFault s.pc r }) ∧
  (∀ (s : State) (a : Fin 8), s.status = .running → s.pc = 0xFE → memRead s 0xFE = 0x82 →
    memRead s 0xFF = regByte a →
    step s = .next { s with ir := 0x82, regs := s.regs.set a.val (memRead s 0x00), pc := 0x01 })

/-- R144, PRN: the register's value joins the output log at its end; nothing is emitted by a faulting PRN. -/
def Obligations.PrnAppendsTheRegister : Prop :=
  (∀ a : Byte, encode (.prn a) = [0x47, a]) ∧
  (∀ (s : State) (a : Fin 8),
    exec (.prn (regByte a)) s = .next { s with out := s.out ++ [readReg s a], pc := s.pc + 2 }) ∧
  (∀ (s : State) (r : Byte), 8 ≤ r.toNat →
    exec (.prn r) s = .next { s with status := .faulted .registerIndexFault s.pc r })

/-- R153, ADD: the sum modulo 256 of the two registers as they were; opA is checked before opB. -/
def Obligations.AddWritesTheSum : Prop :=
  (∀ a b : Byte, encode (.add a b) = [0xA0, a, b]) ∧
  (∀ (s : State) (a b : Fin 8),
    exec (.add (regByte a) (regByte b)) s = .next { s with
      regs := s.regs.set a.val (BitVec.ofNat 8 (((readReg s a).toNat + (readReg s b).toNat) % 256)),
      pc := s.pc + 3 }) ∧
  (∀ (s : State) (r b : Byte), 8 ≤ r.toNat →
    exec (.add r b) s = .next { s with status := .faulted .registerIndexFault s.pc r }) ∧
  (∀ (s : State) (a : Fin 8) (r : Byte), 8 ≤ r.toNat →
    exec (.add (regByte a) r) s = .next { s with status := .faulted .registerIndexFault s.pc r })

/-- R155, MUL: the low 8 bits of the product of the two registers as they were; opA is checked before opB. -/
def Obligations.MulWritesTheProduct : Prop :=
  (∀ a b : Byte, encode (.mul a b) = [0xA2, a, b]) ∧
  (∀ (s : State) (a b : Fin 8),
    exec (.mul (regByte a) (regByte b)) s = .next { s with
      regs := s.regs.set a.val (BitVec.ofNat 8 ((readReg s a).toNat * (readReg s b).toNat % 256)),
      pc := s.pc + 3 }) ∧
  (∀ (s : State) (r b : Byte), 8 ≤ r.toNat →
    exec (.mul r b) s = .next { s with status := .faulted .registerIndexFault s.pc r }) ∧
  (∀ (s : State) (a : Fin 8) (r : Byte), 8 ≤ r.toNat →
    exec (.mul (regByte a) r) s = .next { s with status := .faulted .registerIndexFault s.pc r })

/-- R156, CMP: the whole of FL is written, bit 0 set exactly when the registers are equal and bits 7:1 zero, and no
register changes; opA is checked before opB. -/
def Obligations.CmpWritesTheEqualityFlag : Prop :=
  (∀ a b : Byte, encode (.cmp a b) = [0xA7, a, b]) ∧
  (∀ (s : State) (a b : Fin 8), ∃ t,
    exec (.cmp (regByte a) (regByte b)) s = .next t ∧
    (t.fl = 0x01 ↔ readReg s a = readReg s b) ∧ (t.fl = 0x00 ↔ readReg s a ≠ readReg s b) ∧
    t = { s with fl := t.fl, pc := s.pc + 3 }) ∧
  (∀ (s : State) (r b : Byte), 8 ≤ r.toNat →
    exec (.cmp r b) s = .next { s with status := .faulted .registerIndexFault s.pc r }) ∧
  (∀ (s : State) (a : Fin 8) (r : Byte), 8 ≤ r.toNat →
    exec (.cmp (regByte a) r) s = .next { s with status := .faulted .registerIndexFault s.pc r })

/-- PUSH (43_stack.md; PUSH R7: decision D5): SP is decremented modulo 256, then the operand is read and stored at the new SP; every other byte of
memory and every other register is as before. -/
def Obligations.PushStoresAtTheDecrementedSp : Prop :=
  (∀ a : Byte, encode (.push a) = [0x45, a]) ∧
  (∀ (s : State) (a : Fin 8), ∃ t,
    exec (.push (regByte a)) s = .next t ∧
    (∀ adr, memRead t adr =
      if adr = readReg s 7 - 1 then (if a = 7 then readReg s 7 - 1 else readReg s a) else memRead s adr) ∧
    t = { s with regs := s.regs.set 7 (readReg s 7 - 1), pc := s.pc + 2, mem := t.mem }) ∧
  (∀ (s : State) (r : Byte), 8 ≤ r.toNat →
    exec (.push r) s = .next { s with status := .faulted .registerIndexFault s.pc r })

/-- POP (43_stack.md; POP R7: decision D5): the byte at SP goes to the register, then SP is incremented modulo 256; memory keeps the byte. -/
def Obligations.PopLoadsFromSpThenIncrements : Prop :=
  (∀ a : Byte, encode (.pop a) = [0x46, a]) ∧
  (∀ (s : State) (a : Fin 8),
    exec (.pop (regByte a)) s = .next { s with
      regs := (s.regs.set a.val (memRead s (readReg s 7))).set 7
        (if a = 7 then memRead s (readReg s 7) + 1 else readReg s 7 + 1),
      pc := s.pc + 2 }) ∧
  (∀ (s : State) (r : Byte), 8 ≤ r.toNat →
    exec (.pop r) s = .next { s with status := .faulted .registerIndexFault s.pc r })

/-- CALL (44_call_return.md): the return address `pc + 2` modulo 256 is stored at the decremented SP, then the pc takes the
register's value, that of R7 being the decremented one (decision D5). -/
def Obligations.CallPushesTheReturnAddress : Prop :=
  (∀ a : Byte, encode (.call a) = [0x50, a]) ∧
  (∀ (s : State) (a : Fin 8), ∃ t,
    exec (.call (regByte a)) s = .next t ∧
    (∀ adr, memRead t adr = if adr = readReg s 7 - 1 then s.pc + 2 else memRead s adr) ∧
    t = { s with
      regs := s.regs.set 7 (readReg s 7 - 1),
      pc := if a = 7 then readReg s 7 - 1 else readReg s a,
      mem := t.mem }) ∧
  (∀ (s : State) (r : Byte), 8 ≤ r.toNat →
    exec (.call r) s = .next { s with status := .faulted .registerIndexFault s.pc r })

/-- R182, RET: the pc takes the byte at SP, SP is incremented modulo 256, memory is unchanged. -/
def Obligations.RetPopsThePc : Prop :=
  encode .ret = [0x11] ∧
  (∀ s : State, exec .ret s = .next { s with
    pc := memRead s (readReg s 7), regs := s.regs.set 7 (readReg s 7 + 1) })

/-- R190, JMP: the pc takes the register's value and nothing else changes; a jump to its own address never ends the run. -/
def Obligations.JmpSetsThePc : Prop :=
  (∀ a : Byte, encode (.jmp a) = [0x54, a]) ∧
  (∀ (s : State) (a : Fin 8), exec (.jmp (regByte a)) s = .next { s with pc := readReg s a }) ∧
  (∀ (s : State) (r : Byte), 8 ≤ r.toNat →
    exec (.jmp r) s = .next { s with status := .faulted .registerIndexFault s.pc r }) ∧
  (∀ (s : State) (a : Fin 8), s.status = .running → holdsAtPc s [0x54, regByte a] → readReg s a = s.pc →
    ∀ n, run (n + 1) s = .next { s with ir := 0x54 })

/-- JEQ (45_branch.md): taken when FL bit 0 is 1; not taken it advances by 2 for every operand byte, which it does not
check (decision D20). -/
def Obligations.JeqJumpsWhenEqual : Prop :=
  (∀ a : Byte, encode (.jeq a) = [0x55, a]) ∧
  (∀ (s : State) (a : Fin 8), s.fl.getLsbD 0 = true →
    exec (.jeq (regByte a)) s = .next { s with pc := readReg s a }) ∧
  (∀ (s : State) (r : Byte), s.fl.getLsbD 0 = false → exec (.jeq r) s = .next { s with pc := s.pc + 2 }) ∧
  (∀ (s : State) (r : Byte), s.fl.getLsbD 0 = true → 8 ≤ r.toNat →
    exec (.jeq r) s = .next { s with status := .faulted .registerIndexFault s.pc r })

/-- JNE (45_branch.md): taken when FL bit 0 is 0; not taken it advances by 2 for every operand byte, which it does not
check (decision D20). -/
def Obligations.JneJumpsWhenNotEqual : Prop :=
  (∀ a : Byte, encode (.jne a) = [0x56, a]) ∧
  (∀ (s : State) (a : Fin 8), s.fl.getLsbD 0 = false →
    exec (.jne (regByte a)) s = .next { s with pc := readReg s a }) ∧
  (∀ (s : State) (r : Byte), s.fl.getLsbD 0 = true → exec (.jne r) s = .next { s with pc := s.pc + 2 }) ∧
  (∀ (s : State) (r : Byte), s.fl.getLsbD 0 = false → 8 ≤ r.toNat →
    exec (.jne r) s = .next { s with status := .faulted .registerIndexFault s.pc r })

/-- R193: JEQ and JNE decide on FL bit 0 alone, exactly one of them is taken, the other advances by exactly 2, and the next
step fetches at the new pc. -/
def Obligations.ExactlyOneBranchIsTaken : Prop :=
  ∀ (s : State) (a : Fin 8), ∃ t u,
    exec (.jeq (regByte a)) s = .next t ∧ exec (.jne (regByte a)) s = .next u ∧
    t.pc = (if s.fl.getLsbD 0 then readReg s a else s.pc + 2) ∧
    u.pc = (if s.fl.getLsbD 0 then s.pc + 2 else readReg s a) ∧
    (s.status = .running → ∀ v, step t = .next v → v.ir = memRead t t.pc) ∧
    (s.status = .running → ∀ v, step u = .next v → v.ir = memRead u u.pc)

/-- The three forms whose operand is the stack pointer (decision D5): PUSH R7 stores the decremented SP, POP R7 ends with
the popped byte plus 1, CALL R7 jumps to the decremented SP. -/
def Obligations.StackFormsNamingTheStackPointer : Prop :=
  ∀ s : State,
    (∃ t, exec (.push 7) s = .next t ∧ readReg t 7 = readReg s 7 - 1 ∧ memRead t (readReg s 7 - 1) = readReg s 7 - 1) ∧
    (∃ t, exec (.pop 7) s = .next t ∧ readReg t 7 = memRead s (readReg s 7) + 1) ∧
    (∃ t, exec (.call 7) s = .next t ∧ readReg t 7 = readReg s 7 - 1 ∧ t.pc = readReg s 7 - 1 ∧
      memRead t (readReg s 7 - 1) = s.pc + 2)

/-! ### What each instruction leaves unchanged -/

/-- R33's table, writes: a register outside an instruction's row is unchanged (the table is the spec's own derivation). -/
def Obligations.RegisterFrame : Prop :=
  ∀ (i : Instr) (s t : State) (k : Fin 8), exec i s = .next t → ¬ writesReg i k → readReg t k = readReg s k

/-- R33's table, reads: an instruction does the same whatever a register outside its row holds. -/
def Obligations.UnreadRegisterHasNoInfluence : Prop :=
  ∀ (i : Instr) (s t : State) (k : Fin 8) (v : Byte), exec i s = .next t → ¬ readsReg i s k →
    (writesReg i k → exec i { s with regs := s.regs.set k.val v } = .next t) ∧
    (¬ writesReg i k →
      exec i { s with regs := s.regs.set k.val v } = .next { t with regs := t.regs.set k.val v })

/-- R42 and R154: FL is unchanged by every instruction but CMP, and R43: no instruction but JEQ and JNE behaves differently
for another FL: that other FL stays, except where a CMP whose operands name registers writes FL, and it writes the same. -/
def Obligations.FlagsFrame : Prop :=
  (∀ (i : Instr) (s t : State), exec i s = .next t → i.mnemonic ≠ .cmp → t.fl = s.fl) ∧
  (∀ (i : Instr) (s t : State) (f : Byte), exec i s = .next t → i.mnemonic ≠ .jeq → i.mnemonic ≠ .jne →
    exec i { s with fl := f } = .next { t with fl := if i.mnemonic = .cmp ∧ WellFormed i then t.fl else f })

/-- R62: every byte of memory is unchanged but the one PUSH or CALL stores to, and an instruction that stores nothing
leaves memory as it was. -/
def Obligations.MemoryFrame : Prop :=
  (∀ (i : Instr) (s t : State) (adr : Byte), exec i s = .next t → storeAddr i s ≠ some adr →
    memRead t adr = memRead s adr) ∧
  (∀ (i : Instr) (s t : State), exec i s = .next t → storeAddr i s = none → t.mem = s.mem)

/-- Only PRN adds to the output log, no meaning writes IR, and the run state changes only by HLT or by a register-index
fault on an operand of 8 or more (R49, R47, R121). -/
def Obligations.OutputAndRunStateFrame : Prop :=
  ∀ (i : Instr) (s t : State), exec i s = .next t →
    t.ir = s.ir ∧ (i.mnemonic ≠ .prn → t.out = s.out) ∧
    (t.status = s.status ∨ (i = .hlt ∧ t.status = .halted) ∨
      ∃ r ∈ i.registerOperands, 8 ≤ r.toNat ∧ t.status = .faulted .registerIndexFault s.pc r)

/-- An instruction whose register operands all name registers completes: it never faults (R96, R204). -/
def Obligations.WellFormedInstructionCompletes : Prop :=
  ∀ (i : Instr) (s : State), WellFormed i → ∃ t, exec i s = .next t ∧ (i ≠ .hlt → t.status = s.status)

/-- R38's table: the pc after each instruction whose register operands name registers (the table is the spec's own
derivation; CALL R7: decision D5). -/
def Obligations.NextPcTable : Prop :=
  ∀ (i : Instr) (s : State), WellFormed i → ∃ t, exec i s = .next t ∧ t.pc = nextPc i s

/-! ### Pairs of instructions -/

/-- R174 (the spec's own derivation): PUSH then POP of the same register, R7 included, restores every register, and the
pushed byte stays below SP. -/
def Obligations.PushThenPopRestores : Prop :=
  ∀ (s : State) (a : Fin 8), ∃ t u,
    exec (.push (regByte a)) s = .next t ∧ exec (.pop (regByte a)) t = .next u ∧
    u.regs = s.regs ∧ u.pc = s.pc + 4 ∧
    memRead u (readReg s 7 - 1) = if a = 7 then readReg s 7 - 1 else readReg s a

/-- R183 (the spec's own derivation): a RET reached with SP and the byte at SP as the CALL left them returns to the CALL's
address plus 2 with SP as it was before the CALL. -/
def Obligations.CallThenRetReturns : Prop :=
  ∀ (s t u : State) (a : Fin 8), exec (.call (regByte a)) s = .next t →
    readReg u 7 = readReg t 7 → memRead u (readReg u 7) = memRead t (readReg t 7) →
    ∃ v, exec .ret u = .next v ∧ v.pc = s.pc + 2 ∧ readReg v 7 = readReg s 7

/-! ### The ALU -/

/-- R152 and R157 (decision D2): the ALU's results are unsigned and modulo 256, with the laws the rule lists. -/
def Obligations.AluArithmeticLaws : Prop :=
  ∀ u v : Byte,
    (aluAdd u v).toNat = (u.toNat + v.toNat) % 256 ∧ (aluMul u v).toNat = u.toNat * v.toNat % 256 ∧
    (aluEq u v = 0x01 ↔ u = v) ∧ (aluEq u v = 0x00 ↔ u ≠ v) ∧
    aluAdd u v = aluAdd v u ∧ aluMul u v = aluMul v u ∧
    aluAdd u 0 = u ∧ aluMul u 0 = 0 ∧ aluMul u 1 = u

/-- R151 and R205: an operation outside ADD, MUL and CMP raises UnsupportedALUOperation with its code and writes nothing
else, and no run of the core reaches that fault (the code's form as a byte: log entry 11). -/
def Obligations.UnsupportedAluOperationIsUnreachable : Prop :=
  (∀ (code : Byte) (a b : Fin 8) (s : State),
    aluApply (.other code) (regByte a) (regByte b) s =
      { s with status := .faulted .unsupportedALUOperation s.pc code }) ∧
  (∀ (n : Nat) (s t : State), (∀ p b, s.status ≠ .faulted .unsupportedALUOperation p b) → run n s = .next t →
    ∀ p b, t.status ≠ .faulted .unsupportedALUOperation p b)

/-! ### Invariants -/

/-- The invariant is kept by every step from every state that meets it: canonical memory, FL 0x00 or 0x01 (R42), Halted
only on a HLT, a fault's record true of the bytes at `pc` (R121, R203, R205). -/
def Obligations.StepKeepsTheInvariant : Prop :=
  ∀ s t : State, s.Inv → step s = .next t → t.Inv

/-- The invariant holds after reset, for every GPR_RESET and every IR, and so for `State.reset`. -/
def Obligations.ResetMeetsTheInvariant : Prop :=
  (∀ (gpr : Fin 7 → Byte) (ir : Byte), (State.resetWith gpr ir).Inv) ∧ State.reset.Inv

/-- A launch keeps the invariant, whatever it loads: it loads and starts an Idle core (R231), and that it leaves a core in
another run state as it was is `start`'s rule (R121) and, for the load, the model's choice (log entry 8). -/
def Obligations.LaunchKeepsTheInvariant : Prop :=
  ∀ (source : LaunchSource) (s : State), s.Inv → (launch source s).1.Inv

/-- After any number of steps from any state that meets the invariant there is a state, and it meets the invariant; that
there is one outside Running, where no step happens, is the model's choice (log entry 1). -/
def Obligations.RunKeepsTheInvariant : Prop :=
  ∀ (n : Nat) (s : State), s.Inv → ∃ t, run n s = .next t ∧ t.Inv

/-- The canonical form makes equal memories equal data: two canonical memories that read the same at all 256 addresses are
the same list (log entry 13: the form is the model's). -/
def Obligations.CanonicalMemoryIsExtensional : Prop :=
  ∀ m n : Memory, m.wf → n.wf → (∀ a, a < 256 → m.read a = n.read a) → m = n

/-- R49: over any number of steps the output log only grows at its end. -/
def Obligations.OutputLogOnlyGrows : Prop :=
  ∀ (n : Nat) (s t : State), run n s = .next t → ∃ vs, t.out = s.out ++ vs ∧ vs.length ≤ n

/-! ### Reset, load and start; the host's observations -/

/-- R30's reset column and R230: every field after reset, for every GPR_RESET (R36) and every IR (R47), and `State.reset` is
one of these (its choice of the open values: log entries 3 and 4). -/
def Obligations.ResetValues : Prop :=
  (∀ (gpr : Fin 7 → Byte) (ir : Byte), let s := State.resetWith gpr ir
    readReg s 7 = 0xF4 ∧ (∀ k : Fin 7, readReg s k.castSucc = gpr k) ∧ s.pc = 0x00 ∧ s.fl = 0x00 ∧ s.ir = ir ∧
    s.status = .idle ∧ (∀ a, memRead s a = 0x00) ∧ s.out = []) ∧
  (∃ gpr ir, State.reset = State.resetWith gpr ir)

/-- R231 and R236 with R121: an image of at most 256 bytes loaded into an Idle core and started is in memory from address
0x00, every other byte and every other piece of state as before, the core Running. -/
def Obligations.LoadedImageIsInMemory : Prop :=
  ∀ (image : List Byte) (s : State), s.status = .idle → image.length ≤ 256 →
    (∀ adr : Byte, memRead (start (loadImage image s)) adr = image.getD adr.toNat (memRead s adr)) ∧
    start (loadImage image s) = { s with status := .running, mem := (start (loadImage image s)).mem }

/-- R206: a launch that ends in a load error leaves the core as it was, so that an Idle core stays Idle and takes no step;
an image of more than 256 bytes is such an error (decision D17). -/
def Obligations.LoadErrorLeavesTheCore : Prop :=
  (∀ (source : LaunchSource) (s : State) (e : LoadError), (launch source s).2 = some e → (launch source s).1 = s) ∧
  (∀ (lines : List (List Char)) (image : List Byte) (s : State), parseLines lines = .ok image →
    256 < image.length → launch (.file lines) s = (s, some .imageTooLong))

/-- R236: a line that is a base-2 literal between any blanks, with or without a comment after it, gives the byte of that
value, the most significant digit first, and is a load error when the value exceeds 255 (decision D17); a line of blanks
alone, with or without a comment, gives no byte; a line with any other character before its comment is a load error. Two
things here are the model's choice and not R236's words (log entry 9): the set of blanks, and, for the last clause, that a
literal is only the characters 0 and 1, without a sign, a 0b mark or an underscore. -/
def Obligations.LoadImageLineGivesItsByte : Prop :=
  ∀ (before after tail : List Char), (∀ c ∈ before, isBlank c) → (∀ c ∈ after, isBlank c) →
    (tail = [] ∨ ∃ comment, tail = '#' :: comment) →
    (∀ bits : List Bool, bits ≠ [] →
      parseLine (before ++ (bits.map fun b => if b then '1' else '0') ++ after ++ tail) =
        let v := bits.foldl (fun n b => 2 * n + b.toNat) 0
        if v ≤ 255 then .ok (some (BitVec.ofNat 8 v)) else .error .badLiteral) ∧
    parseLine (before ++ tail) = .ok none ∧
    (∀ token : List Char, '#' ∉ token → (∃ c ∈ token, c ≠ '0' ∧ c ≠ '1' ∧ ¬ isBlank c) →
      parseLine (before ++ token ++ after ++ tail) = .error .badLiteral)

/-- R207 (decision D11): under every admissible EXIT_CODES a halted run, each kind of fault and each load error that a
launch reports have the status of their kind; a failure's is not zero; equal statuses mean equal ways to end; and what has
not ended has none. -/
def Obligations.ExitStatusTellsTheEnd : Prop :=
  ∀ (codes : ExitCodes) (s : State), codes.Admissible →
    (s.status = .idle ∨ s.status = .running → exitStatus codes none s = none) ∧
    (s.status = .halted → exitStatus codes none s = some (codes .normalHalt)) ∧
    (∀ k p b, s.status = .faulted k p b →
      exitStatus codes none s = some (codes (.fatal k)) ∧ exitStatus codes none s ≠ some 0) ∧
    (∀ (source : LaunchSource) (e : LoadError), (launch source s).2 = some e →
      launchStatus codes source s = some (codes (.load e)) ∧ launchStatus codes source s ≠ some 0) ∧
    (∀ (e e' : Option LoadError) (t : State), exitStatus codes e s ≠ none →
      exitStatus codes e s = exitStatus codes e' t → endCause e s = endCause e' t)

/-- R145: a value is printed as its decimal numeral, at least one digit, without padding. -/
def Obligations.OutputIsDecimal : Prop :=
  ∀ v : Byte, decimal v ≠ [] ∧
    (decimal v).foldl (fun n c => 10 * n + (c.toNat - 48)) 0 = v.toNat ∧
    (∀ c ∈ decimal v, 48 ≤ c.toNat ∧ c.toNat ≤ 57) ∧ ((decimal v).length = 1 ∨ (decimal v).head? ≠ some '0')
end

