-- ==== Sys2Proof/Laws/Decode.lean ====
section
/-! SUPPORT. The lookup of an opcode byte: what it finds is in the map, and it fails exactly outside the map. -/

namespace Sys2Proof

theorem Mnemonic.mem_all (m : Mnemonic) : m ∈ Mnemonic.all := by cases m <;> decide

/-- What the lookup finds has that opcode. -/
theorem map_of_mnemonicOf {map : OpcodeMap} {op : Byte} {m : Mnemonic} (h : mnemonicOf map op = some m) :
    map m = op := by
  have := List.find?_some h
  simpa using this

/-- The lookup fails exactly on the bytes that are no value of the map (R99). -/
theorem mnemonicOf_eq_none {map : OpcodeMap} {op : Byte} : mnemonicOf map op = none ↔ ∀ m, map m ≠ op := by
  simp [mnemonicOf, List.find?_eq_none, Mnemonic.mem_all]

/-- The lookup finds the kind of an opcode under a map without repeats. -/
theorem mnemonicOf_map {map : OpcodeMap} (h : map.Admissible) (m : Mnemonic) : mnemonicOf map (map m) = some m := by
  cases hc : mnemonicOf map (map m) with
  | none => exact absurd rfl (mnemonicOf_eq_none.mp hc m)
  | some n => exact congrArg some (h.1 n m (map_of_mnemonicOf hc))

end Sys2Proof
end

