-- ==== Sys2Proof/Laws/State.lean ====
section
/-! SUPPORT. Each field of the state after each update: what the update sets, and that it leaves every other field. -/

namespace Sys2Proof.Machine

variable (s : State)

@[simp] theorem memWrite_regs (a v : Byte) : (memWrite s a v).regs = s.regs := rfl
@[simp] theorem memWrite_pc (a v : Byte) : (memWrite s a v).pc = s.pc := rfl
@[simp] theorem memWrite_fl (a v : Byte) : (memWrite s a v).fl = s.fl := rfl
@[simp] theorem memWrite_ir (a v : Byte) : (memWrite s a v).ir = s.ir := rfl
@[simp] theorem memWrite_status (a v : Byte) : (memWrite s a v).status = s.status := rfl
@[simp] theorem memWrite_mem (a v : Byte) : (memWrite s a v).mem = s.mem.write a.toNat v := rfl
@[simp] theorem memWrite_out (a v : Byte) : (memWrite s a v).out = s.out := rfl

@[simp] theorem writeReg_regs (i : Fin 8) (v : Byte) : (writeReg s i v).regs = s.regs.set i.val v := rfl
@[simp] theorem writeReg_pc (i : Fin 8) (v : Byte) : (writeReg s i v).pc = s.pc := rfl
@[simp] theorem writeReg_fl (i : Fin 8) (v : Byte) : (writeReg s i v).fl = s.fl := rfl
@[simp] theorem writeReg_ir (i : Fin 8) (v : Byte) : (writeReg s i v).ir = s.ir := rfl
@[simp] theorem writeReg_status (i : Fin 8) (v : Byte) : (writeReg s i v).status = s.status := rfl
@[simp] theorem writeReg_mem (i : Fin 8) (v : Byte) : (writeReg s i v).mem = s.mem := rfl
@[simp] theorem writeReg_out (i : Fin 8) (v : Byte) : (writeReg s i v).out = s.out := rfl

@[simp] theorem setPc_regs (t : Byte) : (setPc s t).regs = s.regs := rfl
@[simp] theorem setPc_pc (t : Byte) : (setPc s t).pc = t := rfl
@[simp] theorem setPc_fl (t : Byte) : (setPc s t).fl = s.fl := rfl
@[simp] theorem setPc_ir (t : Byte) : (setPc s t).ir = s.ir := rfl
@[simp] theorem setPc_status (t : Byte) : (setPc s t).status = s.status := rfl
@[simp] theorem setPc_mem (t : Byte) : (setPc s t).mem = s.mem := rfl
@[simp] theorem setPc_out (t : Byte) : (setPc s t).out = s.out := rfl

@[simp] theorem advance_regs (w : Nat) : (advance w s).regs = s.regs := rfl
@[simp] theorem advance_pc (w : Nat) : (advance w s).pc = pcPlus s w := rfl
@[simp] theorem advance_fl (w : Nat) : (advance w s).fl = s.fl := rfl
@[simp] theorem advance_ir (w : Nat) : (advance w s).ir = s.ir := rfl
@[simp] theorem advance_status (w : Nat) : (advance w s).status = s.status := rfl
@[simp] theorem advance_mem (w : Nat) : (advance w s).mem = s.mem := rfl
@[simp] theorem advance_out (w : Nat) : (advance w s).out = s.out := rfl

@[simp] theorem emitOut_regs (v : Byte) : (emitOut s v).regs = s.regs := rfl
@[simp] theorem emitOut_pc (v : Byte) : (emitOut s v).pc = s.pc := rfl
@[simp] theorem emitOut_fl (v : Byte) : (emitOut s v).fl = s.fl := rfl
@[simp] theorem emitOut_ir (v : Byte) : (emitOut s v).ir = s.ir := rfl
@[simp] theorem emitOut_status (v : Byte) : (emitOut s v).status = s.status := rfl
@[simp] theorem emitOut_mem (v : Byte) : (emitOut s v).mem = s.mem := rfl
@[simp] theorem emitOut_out (v : Byte) : (emitOut s v).out = s.out ++ [v] := rfl

@[simp] theorem halt_regs : (halt s).regs = s.regs := rfl
@[simp] theorem halt_pc : (halt s).pc = s.pc := rfl
@[simp] theorem halt_fl : (halt s).fl = s.fl := rfl
@[simp] theorem halt_ir : (halt s).ir = s.ir := rfl
@[simp] theorem halt_status : (halt s).status = .halted := rfl
@[simp] theorem halt_mem : (halt s).mem = s.mem := rfl
@[simp] theorem halt_out : (halt s).out = s.out := rfl

@[simp] theorem setFl_regs (v : Byte) : (setFl s v).regs = s.regs := rfl
@[simp] theorem setFl_pc (v : Byte) : (setFl s v).pc = s.pc := rfl
@[simp] theorem setFl_fl (v : Byte) : (setFl s v).fl = v := rfl
@[simp] theorem setFl_ir (v : Byte) : (setFl s v).ir = s.ir := rfl
@[simp] theorem setFl_status (v : Byte) : (setFl s v).status = s.status := rfl
@[simp] theorem setFl_mem (v : Byte) : (setFl s v).mem = s.mem := rfl
@[simp] theorem setFl_out (v : Byte) : (setFl s v).out = s.out := rfl

@[simp] theorem raiseFault_regs (k : FaultKind) (b : Byte) : (raiseFault k b s).regs = s.regs := rfl
@[simp] theorem raiseFault_pc (k : FaultKind) (b : Byte) : (raiseFault k b s).pc = s.pc := rfl
@[simp] theorem raiseFault_fl (k : FaultKind) (b : Byte) : (raiseFault k b s).fl = s.fl := rfl
@[simp] theorem raiseFault_ir (k : FaultKind) (b : Byte) : (raiseFault k b s).ir = s.ir := rfl
@[simp] theorem raiseFault_status (k : FaultKind) (b : Byte) : (raiseFault k b s).status = .faulted k s.pc b := rfl
@[simp] theorem raiseFault_mem (k : FaultKind) (b : Byte) : (raiseFault k b s).mem = s.mem := rfl
@[simp] theorem raiseFault_out (k : FaultKind) (b : Byte) : (raiseFault k b s).out = s.out := rfl

@[simp] theorem latchIr_regs : (latchIr s).regs = s.regs := rfl
@[simp] theorem latchIr_pc : (latchIr s).pc = s.pc := rfl
@[simp] theorem latchIr_fl : (latchIr s).fl = s.fl := rfl
@[simp] theorem latchIr_ir : (latchIr s).ir = fetchOpcode s := rfl
@[simp] theorem latchIr_status : (latchIr s).status = s.status := rfl
@[simp] theorem latchIr_mem : (latchIr s).mem = s.mem := rfl
@[simp] theorem latchIr_out : (latchIr s).out = s.out := rfl

@[simp] theorem decSp_regs : (decSp s).regs = s.regs.set spIndex.val (wrap8 ((sp s).toNat - 1)) := rfl
@[simp] theorem decSp_pc : (decSp s).pc = s.pc := rfl
@[simp] theorem decSp_fl : (decSp s).fl = s.fl := rfl
@[simp] theorem decSp_ir : (decSp s).ir = s.ir := rfl
@[simp] theorem decSp_status : (decSp s).status = s.status := rfl
@[simp] theorem decSp_mem : (decSp s).mem = s.mem := rfl
@[simp] theorem decSp_out : (decSp s).out = s.out := rfl

@[simp] theorem incSp_regs : (incSp s).regs = s.regs.set spIndex.val (wrap8 ((sp s).toNat + 1)) := rfl
@[simp] theorem incSp_pc : (incSp s).pc = s.pc := rfl
@[simp] theorem incSp_fl : (incSp s).fl = s.fl := rfl
@[simp] theorem incSp_ir : (incSp s).ir = s.ir := rfl
@[simp] theorem incSp_status : (incSp s).status = s.status := rfl
@[simp] theorem incSp_mem : (incSp s).mem = s.mem := rfl
@[simp] theorem incSp_out : (incSp s).out = s.out := rfl

@[simp] theorem storeTop_regs (v : Byte) : (storeTop s v).regs = s.regs := rfl
@[simp] theorem storeTop_pc (v : Byte) : (storeTop s v).pc = s.pc := rfl
@[simp] theorem storeTop_fl (v : Byte) : (storeTop s v).fl = s.fl := rfl
@[simp] theorem storeTop_ir (v : Byte) : (storeTop s v).ir = s.ir := rfl
@[simp] theorem storeTop_status (v : Byte) : (storeTop s v).status = s.status := rfl
@[simp] theorem storeTop_mem (v : Byte) : (storeTop s v).mem = s.mem.write (sp s).toNat v := rfl
@[simp] theorem storeTop_out (v : Byte) : (storeTop s v).out = s.out := rfl

@[simp] theorem pushReturn_regs : (pushReturn s).regs = s.regs.set spIndex.val (wrap8 ((sp s).toNat - 1)) := rfl
@[simp] theorem pushReturn_pc : (pushReturn s).pc = s.pc := rfl
@[simp] theorem pushReturn_fl : (pushReturn s).fl = s.fl := rfl
@[simp] theorem pushReturn_ir : (pushReturn s).ir = s.ir := rfl
@[simp] theorem pushReturn_status : (pushReturn s).status = s.status := rfl
@[simp] theorem pushReturn_mem : (pushReturn s).mem = s.mem.write (sp (decSp s)).toNat (pcPlus s 2) := rfl
@[simp] theorem pushReturn_out : (pushReturn s).out = s.out := rfl

end Sys2Proof.Machine
end

