-- ==== Sys2Proof/Laws/Memory.lean ====
section
/-! SUPPORT. Memory as data: reading after writing, and that every memory operation keeps the canonical form. -/

namespace Sys2Proof.Machine

theorem Memory.read_insertCell (m : Memory) (a b : Nat) (v : Byte) (h : ∀ c ∈ m, c.1 ≠ a) :
    (Memory.insertCell a v m).read b = if b = a then v else m.read b := by
  induction m with
  | nil => simp only [Memory.insertCell, Memory.read, eq_comm]
  | cons c m ih =>
    obtain ⟨d, w⟩ := c
    have hd : d ≠ a := h (d, w) (by simp)
    have ih := ih fun c hc => h c (by simp [hc])
    unfold Memory.insertCell
    split
    · simp only [Memory.read, eq_comm]
    · simp only [Memory.read, ih]
      split <;> simp_all

theorem Memory.read_erase (m : Memory) (a b : Nat) :
    (m.erase a).read b = if b = a then Memory.unlisted else m.read b := by
  induction m with
  | nil => simp [Memory.erase, Memory.read]
  | cons c m ih =>
    obtain ⟨d, w⟩ := c
    simp only [Memory.erase, ne_eq, decide_not] at ih ⊢
    by_cases hd : d = a
    · subst hd
      simp only [List.filter_cons, decide_true, Bool.not_true, Bool.false_eq_true, if_false, ih, Memory.read]
      split <;> simp_all [eq_comm]
    · simp only [List.filter_cons, hd, decide_false, Bool.not_false, if_true, Memory.read, ih]
      split <;> simp_all

theorem Memory.mem_erase {m : Memory} {a : Nat} {c : Host.Cell} : c ∈ m.erase a ↔ c ∈ m ∧ c.1 ≠ a := by
  simp [Memory.erase]

/-- Reading after writing: the value written at its address, every other address as before. -/
theorem Memory.read_write (m : Memory) (a b : Nat) (v : Byte) :
    (m.write a v).read b = if b = a then v else m.read b := by
  unfold Memory.write
  split
  · rw [Memory.read_erase]; simp_all
  · rw [Memory.read_insertCell _ _ _ _ fun c hc => (Memory.mem_erase.mp hc).2, Memory.read_erase]
    split <;> rfl

theorem Memory.mem_insertCell {m : Memory} {a : Nat} {v : Byte} {c : Host.Cell} :
    c ∈ Memory.insertCell a v m ↔ c = (a, v) ∨ c ∈ m := by
  induction m with
  | nil => simp [Memory.insertCell]
  | cons d m ih =>
    unfold Memory.insertCell
    split
    · simp
    · simp only [List.mem_cons, ih]; tauto

theorem Memory.insertCell_pairwise {m : Memory} {a : Nat} {v : Byte}
    (hm : m.Pairwise fun c d => c.1 < d.1) (ha : ∀ c ∈ m, c.1 ≠ a) :
    (Memory.insertCell a v m).Pairwise fun c d => c.1 < d.1 := by
  induction m with
  | nil => simp [Memory.insertCell]
  | cons c m ih =>
    obtain ⟨hc, hm⟩ := List.pairwise_cons.mp hm
    unfold Memory.insertCell
    split
    · rename_i hlt
      refine List.pairwise_cons.mpr ⟨fun d hd => ?_, List.pairwise_cons.mpr ⟨hc, hm⟩⟩
      rcases List.mem_cons.mp hd with rfl | hd
      · exact hlt
      · exact lt_trans hlt (hc d hd)
    · rename_i hge
      refine List.pairwise_cons.mpr ⟨fun d hd => ?_, ih hm fun c hc => ha c (by simp [hc])⟩
      rcases Memory.mem_insertCell.mp hd with rfl | hd
      · have := ha c (by simp)
        omega
      · exact hc d hd

theorem Memory.nil_wf : Memory.wf [] := by simp [Memory.wf]

/-- Erasing keeps the canonical form. -/
theorem Memory.erase_wf {m : Memory} (h : m.wf) (a : Nat) : (m.erase a).wf :=
  ⟨h.1.filter _, fun c hc => h.2 c (Memory.mem_erase.mp hc).1⟩

/-- Writing inside the address space keeps the canonical form. -/
theorem Memory.write_wf {m : Memory} (h : m.wf) {a : Nat} (ha : a < Config.memSize) (v : Byte) :
    (m.write a v).wf := by
  have he := Memory.erase_wf h a
  unfold Memory.write
  split
  · exact he
  · rename_i hv
    refine ⟨Memory.insertCell_pairwise he.1 fun c hc => (Memory.mem_erase.mp hc).2, fun c hc => ?_⟩
    rcases Memory.mem_insertCell.mp hc with rfl | hc
    · exact ⟨ha, hv⟩
    · exact he.2 c hc

/-- A byte read after a store: the byte stored at that address, every other address as before (R68, R72). -/
theorem memRead_memWrite (s : State) (a b v : Byte) :
    memRead (memWrite s a v) b = if b = a then v else memRead s b := by
  unfold memRead
  rw [memWrite_mem, Memory.read_write]
  simp only [BitVec.toNat_inj]

/-- A store keeps the canonical form. -/
theorem memWrite_wf {s : State} (h : s.mem.wf) (a v : Byte) : (memWrite s a v).mem.wf := by
  rw [memWrite_mem]
  exact Memory.write_wf h a.isLt v

/-- Storing bytes one after another keeps the canonical form. -/
theorem writeBytes_wf {s : State} (bytes : List Byte) (a : Byte) (h : s.mem.wf) : (writeBytes bytes a s).mem.wf := by
  induction bytes generalizing a s with
  | nil => exact h
  | cons b bytes ih => exact ih _ (memWrite_wf h a b)

/-- Storing bytes changes memory alone. -/
theorem writeBytes_frame (bytes : List Byte) (a : Byte) (s : State) :
    ∃ m, writeBytes bytes a s = { s with mem := m } := by
  induction bytes generalizing a s with
  | nil => exact ⟨s.mem, rfl⟩
  | cons b bytes ih =>
    obtain ⟨m, hm⟩ := ih (wrap8 (a.toNat + 1)) (memWrite s a b)
    exact ⟨m, by rw [writeBytes, hm]; rfl⟩

/-- The reset memory is canonical. -/
theorem resetWith_wf (gpr : Fin 7 → Byte) (ir : Byte) : (State.resetWith gpr ir).mem.wf := Memory.nil_wf

theorem reset_wf : State.reset.mem.wf := Memory.nil_wf

end Sys2Proof.Machine
end

