-- ==== Sys2Proof/Laws/Ops.lean ====
section
/-! SUPPORT. One lemma per shared operation: the arithmetic of `wrap8`, registers, the register-operand check, the stack,
the ALU, jumps and the fetch. -/

namespace Sys2Proof.Machine

/-! ### wrap8 (R18) -/

theorem wrap8_natCast (n : Nat) : wrap8 (n : Int) = BitVec.ofNat 8 n := by
  simp [wrap8]

theorem wrap8_add (u v : Byte) : wrap8 (u.toNat + v.toNat) = u + v := by
  rw [← Nat.cast_add, wrap8_natCast]; apply BitVec.eq_of_toNat_eq; simp

theorem wrap8_mul (u v : Byte) : wrap8 (u.toNat * v.toNat) = u * v := by
  rw [← Nat.cast_mul, wrap8_natCast]; apply BitVec.eq_of_toNat_eq; simp

theorem wrap8_succ (u : Byte) : wrap8 (u.toNat + 1) = u + 1 := wrap8_add u 1

theorem wrap8_pred (u : Byte) : wrap8 (u.toNat - 1) = u - 1 := by
  apply BitVec.eq_of_toNat_eq
  have h := u.isLt
  have h1 : (1 : Byte).toNat = 1 := rfl
  simp only [wrap8, BitVec.toNat_ofInt, BitVec.toNat_sub, h1]
  omega

/-- The pc advanced by `n`, modulo 256 (R39). -/
theorem pcPlus_eq (s : State) (n : Nat) : pcPlus s n = s.pc + BitVec.ofNat 8 n := by
  unfold pcPlus
  rw [← Nat.cast_add, wrap8_natCast]; apply BitVec.eq_of_toNat_eq; simp

/-! ### Registers -/

/-- Reading a register after writing one. -/
theorem readReg_writeReg (s : State) (i j : Fin 8) (v : Byte) :
    readReg (writeReg s i v) j = if i = j then v else readReg s j := by
  simp only [readReg, writeReg_regs, Vector.getElem_set, Fin.val_inj]

/-- Two states agree on the registers when every register reads the same. -/
theorem regs_ext {r t : Vector Byte 8} (h : ∀ i : Fin 8, r[i.val] = t[i.val]) : r = t :=
  Vector.ext fun i hi => h ⟨i, hi⟩

/-! ### The register-operand check (R15, R96, R204) -/

theorem regIdx_regByte (i : Fin 8) : regIdx (regByte i) = some i := by
  revert i; decide

theorem regIdx_eq_none {r : Byte} : regIdx r = none ↔ 8 ≤ r.toNat := by
  unfold regIdx
  split <;> simp <;> omega

theorem regIdx_eq_some {r : Byte} {i : Fin 8} : regIdx r = some i ↔ r = regByte i := by
  constructor
  · unfold regIdx
    split
    · rintro h
      obtain rfl := Option.some.inj h
      apply BitVec.eq_of_toNat_eq
      simp only [regByte, BitVec.toNat_ofNat]
      omega
    · intro h; cases h
  · rintro rfl; exact regIdx_regByte i

/-- All that using a register operand can do: use the register it names, or raise RegisterIndexFault. -/
theorem withReg_cases (r : Byte) (s : State) (k : Fin 8 → State) :
    (∃ i, regIdx r = some i ∧ withReg r s k = k i) ∨
      (8 ≤ r.toNat ∧ withReg r s k = raiseFault .registerIndexFault r s) := by
  unfold withReg
  cases h : regIdx r with
  | some i => exact .inl ⟨i, rfl, rfl⟩
  | none => exact .inr ⟨regIdx_eq_none.mp h, rfl⟩

theorem withReg_regByte (i : Fin 8) (s : State) (k : Fin 8 → State) : withReg (regByte i) s k = k i := by
  simp [withReg, regIdx_regByte]

theorem withReg_fault {r : Byte} (h : 8 ≤ r.toNat) (s : State) (k : Fin 8 → State) :
    withReg r s k = raiseFault .registerIndexFault r s := by
  simp [withReg, regIdx_eq_none.mpr h]

/-- All that using two register operands can do, opA checked first (R208). -/
theorem withRegs_cases (a b : Byte) (s : State) (k : Fin 8 → Fin 8 → State) :
    (∃ i j, regIdx a = some i ∧ regIdx b = some j ∧ withRegs a b s k = k i j) ∨
      (8 ≤ a.toNat ∧ withRegs a b s k = raiseFault .registerIndexFault a s) ∨
      (a.toNat < 8 ∧ 8 ≤ b.toNat ∧ withRegs a b s k = raiseFault .registerIndexFault b s) := by
  unfold withRegs
  rcases withReg_cases a s fun i => withReg b s fun j => k i j with ⟨i, hi, h⟩ | ⟨ha, h⟩
  · have ha : a.toNat < 8 := by
      by_contra hc
      simp [regIdx_eq_none.mpr (not_lt.mp hc)] at hi
    rcases withReg_cases b s (k i) with ⟨j, hj, h'⟩ | ⟨hb, h'⟩
    · exact .inl ⟨i, j, hi, hj, h.trans h'⟩
    · exact .inr (.inr ⟨ha, hb, h.trans h'⟩)
  · exact .inr (.inl ⟨ha, h⟩)

/-! ### The stack (R70) -/

theorem sp_decSp (s : State) : sp (decSp s) = sp s - 1 := by
  simp only [decSp, sp, readReg_writeReg, if_true, wrap8_pred]

theorem sp_incSp (s : State) : sp (incSp s) = sp s + 1 := by
  simp only [incSp, sp, readReg_writeReg, if_true, wrap8_succ]

theorem readReg_decSp (s : State) (i : Fin 8) : readReg (decSp s) i = if spIndex = i then sp s - 1 else readReg s i := by
  rw [decSp, readReg_writeReg, wrap8_pred]

theorem readReg_incSp (s : State) (i : Fin 8) : readReg (incSp s) i = if spIndex = i then sp s + 1 else readReg s i := by
  rw [incSp, readReg_writeReg, wrap8_succ]

/-- A byte read after a store at the top of the stack. -/
theorem memRead_storeTop (s : State) (v b : Byte) :
    memRead (storeTop s v) b = if b = sp s then v else memRead s b := memRead_memWrite s (sp s) b v

/-- A byte read after CALL's push: the return address at the new SP, every other byte as before (R180). -/
theorem memRead_pushReturn (s : State) (b : Byte) :
    memRead (pushReturn s) b = if b = sp s - 1 then s.pc + 2 else memRead s b := by
  rw [pushReturn, memRead_storeTop, sp_decSp, pcPlus_eq]; rfl

theorem readReg_pushReturn (s : State) (i : Fin 8) :
    readReg (pushReturn s) i = if spIndex = i then sp s - 1 else readReg s i := readReg_decSp s i

/-! ### The ALU (R152) -/

theorem aluAdd_eq (u v : Byte) : aluAdd u v = u + v := wrap8_add u v

theorem aluMul_eq (u v : Byte) : aluMul u v = u * v := wrap8_mul u v

theorem aluEq_eq (u v : Byte) : aluEq u v = if u = v then 0x01 else 0x00 := rfl

/-- All that an ALU instruction can do: one of the two register-index faults, or the effect of the ALU's answer. -/
theorem aluApply_cases (op : AluOp) (a b : Byte) (s : State) :
    (∃ i j, regIdx a = some i ∧ regIdx b = some j ∧ aluApply op a b s =
        match alu op (readReg s i) (readReg s j) with
        | .toRegister v => advance 3 (writeReg s i v)
        | .toFlags v => advance 3 (setFl s v)
        | .unsupported code => raiseFault .unsupportedALUOperation code s) ∨
      (8 ≤ a.toNat ∧ aluApply op a b s = raiseFault .registerIndexFault a s) ∨
      (a.toNat < 8 ∧ 8 ≤ b.toNat ∧ aluApply op a b s = raiseFault .registerIndexFault b s) :=
  withRegs_cases a b s _

/-- All that a taken jump can do. -/
theorem jumpTo_cases (a : Byte) (s : State) :
    (∃ i, regIdx a = some i ∧ jumpTo a s = setPc s (readReg s i)) ∨
      (8 ≤ a.toNat ∧ jumpTo a s = raiseFault .registerIndexFault a s) :=
  withReg_cases a s _

end Sys2Proof.Machine
end

