-- ==== Sys2Proof/Laws/PerInstr.lean ====
section
/-! SUPPORT. Facts about every instruction as syntax, one lemma per constructor. -/

namespace Sys2Proof.Laws.EncodingShape

/-- The encoding of an instruction is as long as its kind is wide, begins with its kind's opcode, and that opcode's bits
7:6 count its operands (R90, R92, R93). -/
def Statement (i : Instr) : Prop :=
  (encode i).length = i.mnemonic.width ∧ (encode i).head? = some (opcodeMap i.mnemonic) ∧
    (opcodeMap i.mnemonic).toNat / 64 = i.operands.length

theorem opcode_counts (m : Mnemonic) : (opcodeMap m).toNat / 64 = m.width - 1 := by cases m <;> decide

/-- The shape of an encoding follows from the instruction having as many operand bytes as its width asks for. -/
theorem shape {i : Instr} (h : i.mnemonic.width = i.operands.length + 1) : Statement i :=
  ⟨h.symm, rfl, (opcode_counts i.mnemonic).trans (congrArg (· - 1) h)⟩

theorem hlt : Statement .hlt := shape rfl
theorem ldi (a imm : Byte) : Statement (.ldi a imm) := shape rfl
theorem prn (a : Byte) : Statement (.prn a) := shape rfl
theorem add (a b : Byte) : Statement (.add a b) := shape rfl
theorem mul (a b : Byte) : Statement (.mul a b) := shape rfl
theorem cmp (a b : Byte) : Statement (.cmp a b) := shape rfl
theorem push (a : Byte) : Statement (.push a) := shape rfl
theorem pop (a : Byte) : Statement (.pop a) := shape rfl
theorem call (a : Byte) : Statement (.call a) := shape rfl
theorem ret : Statement .ret := shape rfl
theorem jmp (a : Byte) : Statement (.jmp a) := shape rfl
theorem jeq (a : Byte) : Statement (.jeq a) := shape rfl
theorem jne (a : Byte) : Statement (.jne a) := shape rfl

end Sys2Proof.Laws.EncodingShape
end

