-- ==== Sys2Proof/Laws/Step.lean ====
section
/-! SUPPORT. All that a step can do, and how a fetch meets the encoder. -/

namespace Sys2Proof.Machine

/-- A step under any map: nothing outside Running; else the decoded instruction on the state with IR latched, or
UnknownInstruction. -/
theorem stepWith_cases (map : OpcodeMap) (s : State) :
    (s.status ≠ .running ∧ stepWith map s = .next s) ∨
      (s.status = .running ∧ ∃ i rest, decodeWith map (fetchBytesWith map s) = .ok (i, rest) ∧
        stepWith map s = exec i (latchIr s)) ∨
      (s.status = .running ∧ (∃ e, decodeWith map (fetchBytesWith map s) = .error e) ∧
        stepWith map s = .next (raiseFault .unknownInstruction (fetchOpcode s) (latchIr s))) := by
  unfold stepWith
  cases hs : s.status with
  | running =>
    cases hd : decodeWith map (fetchBytesWith map s) with
    | ok r => exact .inr (.inl ⟨rfl, r.1, r.2, rfl, rfl⟩)
    | error e => exact .inr (.inr ⟨rfl, ⟨e, rfl⟩, rfl⟩)
  | idle => exact .inl ⟨nofun, rfl⟩
  | halted => exact .inl ⟨nofun, rfl⟩
  | faulted k p b => exact .inl ⟨nofun, rfl⟩

/-- What the fetch delivers and how it decodes: the kind the opcode names, its operands at the addresses after `pc`. -/
theorem fetch_cases (map : OpcodeMap) (s : State) :
    (∃ m, mnemonicOf map (fetchOpcode s) = some m ∧
        decodeWith map (fetchBytesWith map s) = decodeOperands m (operandBytes s (m.width - 1))) ∨
      (mnemonicOf map (fetchOpcode s) = none ∧
        decodeWith map (fetchBytesWith map s) = .error (.unknownOpcode (fetchOpcode s))) := by
  cases h : mnemonicOf map (fetchOpcode s) with
  | some m => exact .inl ⟨m, rfl, by simp [fetchBytesWith, decodeWith, h]⟩
  | none => exact .inr ⟨rfl, by simp [fetchBytesWith, decodeWith, h]⟩

/-! ### Runs -/

theorem core_run_next (M : Host.Core) {s t : M.State} (n : Nat) (h : M.step s = .next t) :
    M.run (n + 1) s = M.run n t := by
  rw [Host.Core.run, h]

theorem run_zero (s : State) : run 0 s = .next s := rfl

/-- A run of one more step begins with the step. -/
theorem run_succ {s t : State} (n : Nat) (h : step s = .next t) : run (n + 1) s = run n t :=
  core_run_next Sys2Proof.core n h

end Sys2Proof.Machine
end

