-- ==== Sys2Proof/Tests/Slice0.lean ====
section
/-! SUPPORT. Tests from the spec's own vectors (95_test_vectors.md, named V-… and W… there) and worked encodings (R91, R93),
and for each statement with hypotheses a witness `witness_<statement>` that meets them, at the ends of their ranges. -/

namespace Sys2Proof.Tests

open Sys2Proof.Machine

/-! ### Helpers -/

/-- A Running core at `pc` with these bytes there, all else as after reset. -/
def at_ (pc : Byte) (bytes : List Byte) : State :=
  writeBytes bytes pc { State.reset with status := .running, pc := pc }

/-- The next state, none for another outcome. -/
def nextOf (o : Host.Outcome State Fault Refusal) : Option State :=
  match o with
  | .next s => some s
  | .fault _ => none
  | .refused _ => none

/-- One field after one step. -/
def stepGives {α : Type} (s : State) (f : State → α) : Option α := (nextOf (step s)).map f

/-! ### WellFormed: an ill-formed term for the check, at opA, at opB and at the top of the byte -/

theorem test_illFormed_opA : ¬ WellFormed (.ldi 8 0) := by decide
theorem test_illFormed_opB : ¬ WellFormed (.add 7 8) := by decide
theorem test_illFormed_top : ¬ WellFormed (.jmp 255) := by decide
theorem test_wellFormed : WellFormed (.ldi 7 255) ∧ WellFormed .hlt ∧ WellFormed (.cmp 0 7) := by decide

/-! ### Decoding: each constructor from its row of R93, written out bit by bit -/

theorem test_decode_hlt : decode [0b00000001] = .ok (.hlt, []) := rfl
theorem test_decode_ldi : decode [0b10000010, 0b00000011, 0b11111111] = .ok (.ldi 3 255, []) := rfl
theorem test_decode_prn : decode [0b01000111, 0b00000111] = .ok (.prn 7, []) := rfl
theorem test_decode_add : decode [0b10100000, 0b00000010, 0b00000011] = .ok (.add 2 3, []) := rfl
theorem test_decode_mul : decode [0b10100010, 0b00000000, 0b00000001] = .ok (.mul 0 1, []) := rfl
theorem test_decode_cmp : decode [0b10100111, 0b00000101, 0b00001000] = .ok (.cmp 5 8, []) := rfl
theorem test_decode_push : decode [0b01000101, 0b00000111] = .ok (.push 7, []) := rfl
theorem test_decode_pop : decode [0b01000110, 0b11001000] = .ok (.pop 200, []) := rfl
theorem test_decode_call : decode [0b01010000, 0b00000001] = .ok (.call 1, []) := rfl
theorem test_decode_ret : decode [0b00010001, 0b01000101] = .ok (.ret, [0b01000101]) := rfl
theorem test_decode_jmp : decode [0b01010100, 0b00000011] = .ok (.jmp 3, []) := rfl
theorem test_decode_jeq : decode [0b01010101, 0b11111111] = .ok (.jeq 255, []) := rfl
theorem test_decode_jne : decode [0b01010110, 0b00000011] = .ok (.jne 3, []) := rfl

/-- V-DSP-3, V-DSP-4: one bit away from an opcode is no opcode. -/
theorem test_decode_unknown :
    decode [0x83, 0x00, 0x05] = .error (.unknownOpcode 0x83) ∧ decode [0x02] = .error (.unknownOpcode 0x02) := ⟨rfl, rfl⟩

theorem test_decode_short : decode [] = .error .noBytes ∧ decode [0x82, 0x00] = .error (.missingOperand .ldi) := ⟨rfl, rfl⟩

/-- The table's numbering: bits 7:0 the opcode, 15:8 opA, 23:16 opB; bits above `nbits` are 0. -/
theorem test_tableWord :
    decodeTableWord 24 0x080082 = some (.ldi 0 8) ∧ decodeTableWord 8 0xFFFF47 = some (.prn 0) ∧
      decodeTableWord 8 0x00 = none := by decide

/-! ### One step, from the vectors of 95_test_vectors.md -/

/-- The placed instruction is the first one after reset to run. -/
theorem test_fetchWord : stepGives (State.reset.withFetchWord 24 0x080082) (fun t => (readReg t 0, t.pc)) =
    some (0x08, 0x03) := by decide

/-- V-DSP-1 and V-DSP-2. -/
theorem test_unknownInstruction :
    stepGives (at_ 0x00 []) (·.status) = some (.faulted .unknownInstruction 0x00 0x00) ∧
      stepGives (at_ 0x40 [0xFF]) (·.status) = some (.faulted .unknownInstruction 0x40 0xFF) := by decide

/-- V-DSP-5: Idle takes no step. -/
theorem test_idle : stepGives State.reset id = some State.reset := by decide

/-- V-HLT-1. -/
theorem test_hlt : stepGives (at_ 0x0B [0x01]) (fun t => (t.status, t.pc)) = some (.halted, 0x0B) := by decide

/-- V-LDI-3: R7 is written like any register. -/
theorem test_ldi_sp : stepGives (at_ 0x00 [0x82, 0x07, 0x80]) sp = some 0x80 := by decide

/-- V-PRN-1 and V-PRN-2. -/
theorem test_prn :
    stepGives (writeReg (at_ 0x09 [0x47, 0x00]) 0 17) (fun t => (t.out, t.pc)) = some ([17], 0x0B) ∧
      stepGives (at_ 0x00 [0x47, 0x07]) (·.out) = some [244] := by decide

/-- V-ADD-2: 200 + 100 = 44 modulo 256, and V-ADD-5: FL is not written. -/
theorem test_add_wraps :
    stepGives (writeReg (writeReg (setFl (at_ 0x06 [0xA0, 0x00, 0x01]) 1) 0 200) 1 100)
      (fun t => (readReg t 0, readReg t 1, t.fl)) = some (44, 100, 1) := by decide

/-- V-ADD-8: opA is reported first. -/
theorem test_add_opA_first :
    stepGives (at_ 0x30 [0xA0, 0x09, 0x0A]) (·.status) = some (.faulted .registerIndexFault 0x30 0x09) := by decide

/-- V-MUL-3: 255 × 255 = 1 modulo 256. -/
theorem test_mul_wraps :
    stepGives (writeReg (writeReg (at_ 0x00 [0xA2, 0x00, 0x01]) 0 255) 1 255) (readReg · 0) = some 1 := by decide

/-- V-MUL-2: a source that is the destination. -/
theorem test_mul_self : stepGives (writeReg (at_ 0x00 [0xA2, 0x02, 0x02]) 2 16) (readReg · 2) = some 0 := by decide

/-- V-CMP-4: unequal registers clear the whole byte. -/
theorem test_cmp_unequal :
    stepGives (writeReg (writeReg (setFl (at_ 0x00 [0xA7, 0x00, 0x01]) 1) 0 1) 1 2) (·.fl) = some 0x00 := by decide

/-- V-CMP-3: a register compared with itself. -/
theorem test_cmp_equal : stepGives (writeReg (at_ 0x00 [0xA7, 0x02, 0x02]) 2 0x9C) (·.fl) = some 0x01 := by decide

/-- V-PUSH-2: SP wraps below 0x00. -/
theorem test_push_wraps :
    stepGives (writeReg (writeReg (at_ 0x10 [0x45, 0x01]) 7 0x00) 1 0xAB) (fun t => (sp t, memRead t 0xFF)) =
      some (0xFF, 0xAB) := by decide

/-- V-PUSH-3: PUSH R7 stores the decremented value. -/
theorem test_push_sp : stepGives (at_ 0x00 [0x45, 0x07]) (fun t => (sp t, memRead t 0xF3)) = some (0xF3, 0xF3) := by
  decide

/-- V-POP-2: SP wraps above 0xFF. -/
theorem test_pop_wraps :
    stepGives (memWrite (writeReg (at_ 0x10 [0x46, 0x02]) 7 0xFF) 0xFF 0x42) (fun t => (readReg t 2, sp t)) =
      some (0x42, 0x00) := by decide

/-- V-POP-3: POP R7 ends as the popped byte plus 1. -/
theorem test_pop_sp :
    stepGives (memWrite (writeReg (at_ 0x10 [0x46, 0x07]) 7 0xF3) 0xF3 0x20) sp = some 0x21 := by decide

/-- V-CALL-2: the operand is at 0xFF and the return address wraps to 0x00. -/
theorem test_call_wraps :
    stepGives (writeReg (at_ 0xFE [0x50, 0x01]) 1 0x10) (fun t => (t.pc, sp t, memRead t 0xF3)) =
      some (0x10, 0xF3, 0x00) := by decide

/-- V-CALL-3: CALL R7 jumps to the decremented SP. -/
theorem test_call_sp :
    stepGives (at_ 0x20 [0x50, 0x07]) (fun t => (t.pc, memRead t 0xF3)) = some (0xF3, 0x22) := by decide

/-- V-RET-2. -/
theorem test_ret_wraps :
    stepGives (memWrite (writeReg (at_ 0x10 [0x11]) 7 0xFF) 0xFF 0x30) (fun t => (t.pc, sp t)) = some (0x30, 0x00) := by
  decide

/-- V-JMP-2. -/
theorem test_jmp : stepGives (at_ 0x00 [0x54, 0x07]) (·.pc) = some 0xF4 := by decide

/-- V-JEQ-3 and V-JEQ-4: the operand is checked only when the branch is taken. -/
theorem test_jeq :
    stepGives (at_ 0x09 [0x55, 0xFF]) (·.pc) = some 0x0B ∧
      stepGives (setFl (at_ 0x09 [0x55, 0xFF]) 1) (·.status) = some (.faulted .registerIndexFault 0x09 0xFF) := by decide

/-- V-JNE-1, and V-JNE-5: an operand at 0x00 and a pc that wraps. -/
theorem test_jne :
    stepGives (writeReg (at_ 0x14 [0x56, 0x03]) 3 0x0C) (·.pc) = some 0x0C ∧
      stepGives (setFl (at_ 0xFF [0x56]) 1) (·.pc) = some 0x01 := by decide

/-! ### The host's side -/

/-- W8: a literal with a comment, a blank line, two more literals. -/
theorem test_parse_W8 :
    parseLines [['1', '0', '0', '0', '0', '0', '1', '0', ' ', '#', ' ', 'l'], [], ['0', '0', '0', '0', '0', '0', '0', '0'],
      ['0', '0', '0', '0', '0', '1', '0', '1']] = .ok [0x82, 0x00, 0x05] := rfl

/-- R236: another character, and a value above 255, are parse errors. -/
theorem test_parse_bad :
    parseLine ['1', '2'] = .error .badLiteral ∧
      parseLine ['1', '0', '0', '0', '0', '0', '0', '0', '0'] = .error .badLiteral := ⟨rfl, rfl⟩

/-- V-PRN-4 and R145: decimal, no padding. -/
theorem test_decimal : decimal 0 = ['0'] ∧ decimal 17 = ['1', '7'] ∧ decimal 244 = ['2', '4', '4'] := by decide

/-- R218: the payload's first fields as two uppercase hexadecimal digits. -/
theorem test_trace : (traceFields (at_ 0x0B [0x82, 0x07, 0xAF])).take 4 = [['0', 'B'], ['8', '2'], ['0', '7'], ['A', 'F']] := by
  decide

theorem test_kinds : FaultKind.unknownInstruction.number = 1 ∧ FaultKind.registerIndexFault.number = 2 ∧
    FaultKind.unsupportedALUOperation.number = 3 := by decide

/-! ### Witnesses for the statements' hypotheses -/

theorem witness_DecodeOfEncodeIsTheInstruction : opcodeMap.Admissible := by
  refine ⟨fun m n => ?_, rfl⟩
  cases m <;> cases n <;> simp [opcodeMap]

theorem witness_EncodeOfDecodeIsTheBytes :
    decodeWith opcodeMap [0x47, 0x00, 0x01] = .ok (.prn 0, [0x01]) ∧
      decodeWith opcodeMap [0x82, 0xFF, 0xFF] = .ok (.ldi 255 255, []) := ⟨rfl, rfl⟩

/-- V-DSP-1 and V-DSP-2. -/
theorem witness_IllegalOpcodeRaisesUnknownInstruction :
    (at_ 0x00 []).status = .running ∧
      memRead (at_ 0x00 []) 0x00 ∉ ([0x01, 0x11, 0x45, 0x46, 0x47, 0x50, 0x54, 0x55, 0x56, 0x82, 0xA0, 0xA2, 0xA7] : List Byte) ∧
      (at_ 0x40 [0xFF]).status = .running ∧
      memRead (at_ 0x40 [0xFF]) 0x40 ∉ ([0x01, 0x11, 0x45, 0x46, 0x47, 0x50, 0x54, 0x55, 0x56, 0x82, 0xA0, 0xA2, 0xA7] : List Byte) := by
  decide

theorem witness_StepRunsTheDecodedInstruction :
    (at_ 0xFF [0x47, 0x07]).status = .running ∧ decode (fetchBytes (at_ 0xFF [0x47, 0x07])) = .ok (.prn 7, []) := ⟨rfl, rfl⟩

theorem witness_StepRunsTheEncodedInstruction :
    (at_ 0xFE [0x82, 0x01, 0x2A]).status = .running ∧ holdsAtPc (at_ 0xFE [0x82, 0x01, 0x2A]) (encode (.ldi 1 42)) := by
  unfold holdsAtPc; decide

/-- V-DSP-5, V-DSP-6. -/
theorem witness_NoStepOutsideRunning :
    State.reset.status = .idle ∧ (halt State.reset).status = .halted ∧
      (raiseFault .unknownInstruction 0xFF State.reset).status = .faulted .unknownInstruction 0x00 0xFF := by decide

theorem witness_RunStateTransitions :
    ((at_ 0x0B [0x01]).status = .running ∧ memRead (at_ 0x0B [0x01]) 0x0B = 0x01 ∧ (nextOf (step (at_ 0x0B [0x01]))).isSome) ∧
    ((at_ 0x00 []).status = .running ∧ memRead (at_ 0x00 []) 0x00 ≠ 0x01 ∧ (nextOf (step (at_ 0x00 []))).isSome) ∧
    State.reset.status = .idle ∧ (halt State.reset).status ≠ .idle := by decide

/-- V-LDI-4. -/
theorem witness_FaultIsPrecise :
    (at_ 0x20 [0x82, 0x08, 0x01]).status = .running ∧
      stepGives (at_ 0x20 [0x82, 0x08, 0x01]) (·.status) = some (.faulted .registerIndexFault 0x20 0x08) := by decide

theorem witness_OperandIsReadBeforeOwnStackWrite :
    let s := writeReg (at_ 0x40 [0x50, 0x06]) 7 0x42
    s.status = .running ∧ holdsAtPc s [0x50, regByte 6] ∧ readReg s 7 - 1 = s.pc + 1 := by
  unfold holdsAtPc; decide

/-- P8's third step. -/
theorem witness_FetchSeesThePushedByte :
    let s := writeReg (writeReg (at_ 0x06 [0x45, 0x00]) 7 0x09) 0 0x01
    s.status = .running ∧ holdsAtPc s [0x45, regByte 0] ∧ readReg s 7 - 1 = s.pc + 2 := by
  unfold holdsAtPc; decide

theorem witness_HltHaltsWithPcUnchanged :
    exec .hlt (at_ 0x0B [0x01]) = .next (halt (at_ 0x0B [0x01])) ∧ (halt (at_ 0x0B [0x01])).status = .halted ∧
      run 3 (halt State.reset) = .next (halt State.reset) := ⟨rfl, rfl, rfl⟩

/-- V-LDI-4 at the ends of the range, and V-LDI-5. -/
theorem witness_LdiLoadsTheImmediate :
    8 ≤ (8 : Byte).toNat ∧ 8 ≤ (255 : Byte).toNat ∧
    (let s := at_ 0xFE [0x82, 0x01, 0x2A]
     s.status = .running ∧ s.pc = 0xFE ∧ memRead s 0xFE = 0x82 ∧ memRead s 0xFF = regByte 1 ∧ memRead s 0x00 = 0x2A) := by
  decide

/-- V-PRN-3's fault at both ends of the operand's range. -/
theorem witness_PrnAppendsTheRegister :
    8 ≤ (8 : Byte).toNat ∧ 8 ≤ (255 : Byte).toNat ∧
      (nextOf (exec (.prn 8) State.reset)).map (·.status) = some (.faulted .registerIndexFault 0x00 8) ∧
      (nextOf (exec (.prn 255) State.reset)).map (·.out) = some [] := by decide

/-- V-ADD-6 and V-ADD-7: the fault on opA and on opB, at both ends. -/
theorem witness_AddWritesTheSum :
    8 ≤ (8 : Byte).toNat ∧ 8 ≤ (255 : Byte).toNat ∧
      (nextOf (exec (.add 8 1) State.reset)).map (·.status) = some (.faulted .registerIndexFault 0x00 8) ∧
      (nextOf (exec (.add (regByte 7) 255) State.reset)).map (·.status) = some (.faulted .registerIndexFault 0x00 255) := by
  decide

/-- V-MUL-7. -/
theorem witness_MulWritesTheProduct :
    8 ≤ (8 : Byte).toNat ∧ 8 ≤ (255 : Byte).toNat ∧
      (nextOf (exec (.mul 255 1) State.reset)).map (·.status) = some (.faulted .registerIndexFault 0x00 255) ∧
      (nextOf (exec (.mul (regByte 0) 8) State.reset)).map (·.status) = some (.faulted .registerIndexFault 0x00 8) := by
  decide

/-- V-CMP-7. -/
theorem witness_CmpWritesTheEqualityFlag :
    8 ≤ (8 : Byte).toNat ∧ 8 ≤ (255 : Byte).toNat ∧
      (nextOf (exec (.cmp 255 1) State.reset)).map (·.status) = some (.faulted .registerIndexFault 0x00 255) ∧
      (nextOf (exec (.cmp (regByte 0) 8) (setFl State.reset 1))).map (·.fl) = some 1 := by decide

/-- V-PUSH-4. -/
theorem witness_PushStoresAtTheDecrementedSp :
    8 ≤ (8 : Byte).toNat ∧ 8 ≤ (255 : Byte).toNat ∧
      (nextOf (exec (.push 8) State.reset)).map (fun t => (sp t, memRead t 0xF3)) = some (0xF4, 0x00) := by decide

/-- V-POP-5. -/
theorem witness_PopLoadsFromSpThenIncrements :
    8 ≤ (8 : Byte).toNat ∧ 8 ≤ (255 : Byte).toNat ∧ (nextOf (exec (.pop 200) State.reset)).map sp = some 0xF4 := by decide

/-- V-CALL-4. -/
theorem witness_CallPushesTheReturnAddress :
    8 ≤ (8 : Byte).toNat ∧ 8 ≤ (255 : Byte).toNat ∧
      (nextOf (exec (.call 8) State.reset)).map (fun t => (sp t, memRead t 0xF3)) = some (0xF4, 0x00) := by decide

/-- V-JMP-3, and P7's jump to itself. -/
theorem witness_JmpSetsThePc :
    8 ≤ (8 : Byte).toNat ∧ 8 ≤ (255 : Byte).toNat ∧
    (let s := writeReg (at_ 0x03 [0x54, 0x00]) 0 0x03
     s.status = .running ∧ holdsAtPc s [0x54, regByte 0] ∧ readReg s 0 = s.pc) := by
  unfold holdsAtPc; decide

theorem witness_JeqJumpsWhenEqual :
    (setFl State.reset 1).fl.getLsbD 0 = true ∧ State.reset.fl.getLsbD 0 = false ∧ 8 ≤ (8 : Byte).toNat ∧
      8 ≤ (255 : Byte).toNat := by decide

theorem witness_JneJumpsWhenNotEqual :
    State.reset.fl.getLsbD 0 = false ∧ (setFl State.reset 1).fl.getLsbD 0 = true ∧ 8 ≤ (8 : Byte).toNat ∧
      8 ≤ (255 : Byte).toNat := by decide

theorem witness_ExactlyOneBranchIsTaken :
    (at_ 0x14 [0x56, 0x03]).status = .running ∧
      (nextOf (exec (.jne (regByte 3)) (at_ 0x14 [0x56, 0x03]))).map (fun t => (nextOf (step t)).isSome) = some true := by decide

theorem witness_RegisterFrame :
    (nextOf (exec (.pop (regByte 1)) State.reset)).isSome ∧ ¬ writesReg (.pop (regByte 1)) 0 ∧
      (nextOf (exec (.ldi (regByte 0) 9) State.reset)).isSome ∧ ¬ writesReg (.ldi (regByte 0) 9) 7 := by
  refine ⟨by decide, ?_, by decide, ?_⟩ <;> unfold writesReg <;> decide

theorem witness_UnreadRegisterHasNoInfluence :
    (nextOf (exec (.pop (regByte 1)) State.reset)).isSome ∧ ¬ readsReg (.pop (regByte 1)) State.reset 1 ∧
      writesReg (.pop (regByte 1)) 1 ∧ ¬ readsReg (.jeq (regByte 2)) State.reset 2 ∧ ¬ writesReg (.jeq (regByte 2)) 2 := by
  refine ⟨by decide, ?_, ?_, ?_, ?_⟩ <;> first | unfold readsReg | unfold writesReg
  all_goals decide

/-- A completing CMP under another FL, and a CMP that faults. -/
theorem witness_FlagsFrame :
    WellFormed (.cmp 0 1) ∧ ¬ WellFormed (.cmp 0 8) ∧ (nextOf (exec (.cmp 0 8) State.reset)).isSome ∧
    (nextOf (exec (.add (regByte 0) (regByte 1)) State.reset)).isSome ∧
      (Instr.add (regByte 0) (regByte 1)).mnemonic ≠ .cmp ∧ (Instr.cmp 0 1).mnemonic ≠ .jeq ∧
      (Instr.cmp 0 1).mnemonic ≠ .jne ∧ (nextOf (exec (.cmp (regByte 0) (regByte 1)) State.reset)).isSome := by decide

theorem witness_MemoryFrame :
    (nextOf (exec (.push (regByte 0)) State.reset)).isSome ∧ storeAddr (.push (regByte 0)) State.reset = some 0xF3 ∧
      storeAddr (.call 8) State.reset = none ∧ storeAddr (.pop (regByte 0)) State.reset = none := by decide

theorem witness_OutputAndRunStateFrame :
    (nextOf (exec (.jmp 8) State.reset)).map (·.status) = some (.faulted .registerIndexFault 0 8) ∧
      (Instr.jmp 8).mnemonic ≠ .prn := by decide

theorem witness_WellFormedInstructionCompletes : WellFormed (.add 0 7) ∧ Instr.add 0 7 ≠ .hlt := by decide

theorem witness_NextPcTable : WellFormed (.jeq 7) ∧ WellFormed (.call 7) ∧ WellFormed .ret := by decide

theorem witness_CallThenRetReturns :
    let t := setPc (pushReturn State.reset) 0x00
    exec (.call (regByte 0)) State.reset = .next t ∧
      readReg t 7 = readReg t 7 ∧ memRead t (readReg t 7) = memRead t (readReg t 7) := ⟨rfl, rfl, rfl⟩

/-- The state the invariant's witnesses use: Running, with HLT at 0x00. -/
theorem witness_StepKeepsTheInvariant :
    (at_ 0x00 [0x01]).Inv ∧ step (at_ 0x00 [0x01]) = .next (halt (latchIr (at_ 0x00 [0x01]))) :=
  ⟨⟨by decide, by decide, trivial⟩, rfl⟩

/-- An Idle core, and one that has faulted. -/
theorem witness_LaunchKeepsTheInvariant :
    ((writeBytes [0x01] 0xFF State.reset).status = .idle ∧ (writeBytes [0x01] 0xFF State.reset).Inv) ∧
      (raiseFault .unknownInstruction 0x00 State.reset).Inv :=
  ⟨⟨by decide, by decide, by decide, trivial⟩, by decide, by decide, rfl, rfl, rfl⟩

/-- A Running core whose instruction lies across the wrap, and an Idle one. -/
theorem witness_RunKeepsTheInvariant : (at_ 0xFF [0xA0, 0x08, 0x00]).Inv ∧ (writeBytes [0x01] 0x00 State.reset).Inv :=
  ⟨⟨by decide, by decide, trivial⟩, by decide, by decide, trivial⟩

theorem witness_UnsupportedAluOperationIsUnreachable :
    (∀ p b, State.reset.status ≠ .faulted .unsupportedALUOperation p b) ∧ run 1 (at_ 0x00 []) =
      .next (raiseFault .unknownInstruction 0x00 (at_ 0x00 [])) := ⟨nofun, rfl⟩

theorem witness_CanonicalMemoryIsExtensional :
    Memory.wf [(0, 1), (255, 2)] ∧ ¬ Memory.wf [(1, 1), (0, 2)] ∧ ¬ Memory.wf [(0, 0)] ∧ ¬ Memory.wf [(256, 1)] := by decide

theorem witness_OutputLogOnlyGrows :
    run 1 (at_ 0x00 [0x47, 0x07]) = .next (advance 2 (emitOut (latchIr (at_ 0x00 [0x47, 0x07])) 0xF4)) := rfl

theorem witness_LoadedImageIsInMemory :
    State.reset.status = .idle ∧ (List.replicate 256 (0xA0 : Byte)).length ≤ 256 ∧ ([] : List Byte).length ≤ 256 :=
  ⟨rfl, (List.length_replicate ..).le, Nat.zero_le _⟩

theorem parse_ones (n : Nat) : parseLines (List.replicate n ['1']) = .ok (List.replicate n 1) := by
  induction n with
  | zero => rfl
  | succ n ih =>
    have h1 : parseLine ['1'] = .ok (some 1) := rfl
    rw [List.replicate_succ, parseLines, h1, ih]
    rfl

theorem witness_LoadErrorLeavesTheCore :
    (launch .missingFile State.reset).2 = some .fileNotFound ∧
      parseLines (List.replicate 257 ['1']) = .ok (List.replicate 257 1) ∧ 256 < (List.replicate 257 (1 : Byte)).length :=
  ⟨rfl, parse_ones 257, by rw [List.length_replicate]; decide⟩

/-- R236's example (its comment cut to its first word) is an instance; so are no blanks, no comment, and a bad character. -/
theorem witness_LoadImageLineGivesItsByte :
    (∀ c ∈ [' ', '\t', '\r'], isBlank c) ∧ (∀ c ∈ ([] : List Char), isBlank c) ∧
      ([] ++ ([true, false, false, false, false, false, true, false].map fun b => if b then '1' else '0') ++ [' '] ++
        '#' :: [' ', 'l', 'o', 'a', 'd']) =
        ['1', '0', '0', '0', '0', '0', '1', '0', ' ', '#', ' ', 'l', 'o', 'a', 'd'] ∧
      [true].foldl (fun n b => 2 * n + b.toNat) 0 ≤ 255 ∧
      (List.replicate 8 true).foldl (fun n b => 2 * n + b.toNat) 0 = 255 ∧
      (true :: List.replicate 8 false).foldl (fun n b => 2 * n + b.toNat) 0 = 255 + 1 ∧
      '#' ∉ ['1', '2'] ∧ (∃ c ∈ ['1', '2'], c ≠ '0' ∧ c ≠ '1' ∧ ¬ isBlank c) := by
  refine ⟨by simp [isBlank], nofun, rfl, ?_, rfl, rfl, ?_, '2', ?_, ?_, ?_, ?_⟩ <;> decide

/-- R236's example. -/
theorem test_parse_R236 :
    parseLine ['1', '0', '0', '0', '0', '0', '1', '0', ' ', '#', ' ', 'l', 'o', 'a', 'd'] = .ok (some 0x82) := rfl

/-- Seven distinct non-zero statuses and 0 for a normal halt. -/
def sampleCodes : ExitCodes
  | .normalHalt => 0
  | .fatal k => k.number
  | .load .argumentCount => 4
  | .load .fileNotFound => 5
  | .load .badLiteral => 6
  | .load .imageTooLong => 7

/-- Each load error of R206 is reported, and each has its status. -/
theorem test_loadErrorStatus :
    launchStatus sampleCodes .wrongArgumentCount State.reset = some 4 ∧
      launchStatus sampleCodes .missingFile State.reset = some 5 ∧
      launchStatus sampleCodes (.file [['1', '2']]) State.reset = some 6 ∧
      launchStatus sampleCodes (.file [['1']]) State.reset = none := by decide

theorem witness_ExitStatusTellsTheEnd :
    sampleCodes.Admissible ∧ State.reset.status = .idle ∧ (at_ 0x00 []).status = .running ∧
      (raiseFault .registerIndexFault 8 State.reset).status = .faulted .registerIndexFault 0 8 ∧
      (halt State.reset).status = .halted ∧ (launch .missingFile State.reset).2 = some .fileNotFound ∧
      exitStatus sampleCodes (some .fileNotFound) State.reset = exitStatus sampleCodes (some .fileNotFound) (at_ 0x00 []) ∧
      exitStatus sampleCodes (some .fileNotFound) State.reset ≠ none := by
  refine ⟨⟨fun c => ?_, fun c d => ?_⟩, rfl, rfl, rfl, rfl, rfl, rfl, nofun⟩
  · rcases c with _ | k | e
    · exact fun h => absurd rfl h
    · cases k <;> decide
    · cases e <;> decide
  · rcases c with _ | k | e <;> rcases d with _ | k' | e'
    all_goals try cases k
    all_goals try cases e
    all_goals try cases k'
    all_goals try cases e'
    all_goals decide

end Sys2Proof.Tests
end

/-! The thirteen opcodes of the default map (R93) and the step on any other byte (R99, R202). -/

namespace Sys2Proof.Machine

/-- The bytes that name an instruction under the default map, in ascending order. -/
def legalOpcodes : List Byte :=
  [0x01, 0x11, 0x45, 0x46, 0x47, 0x50, 0x54, 0x55, 0x56, 0x82, 0xA0, 0xA2, 0xA7]

theorem legalOpcodes_perm_opcodeMap : legalOpcodes.Perm (Mnemonic.all.map opcodeMap) := by decide

theorem mem_legalOpcodes {op : Byte} : op ∈ legalOpcodes ↔ ∃ m, opcodeMap m = op := by
  simp [legalOpcodes_perm_opcodeMap.mem_iff, Mnemonic.mem_all]

theorem mnemonicOf_opcodeMap_eq_none {op : Byte} : mnemonicOf opcodeMap op = none ↔ op ∉ legalOpcodes := by
  simp [mnemonicOf_eq_none, mem_legalOpcodes]

/-- R202, under any map: an opcode byte that names no kind is latched in IR and raised. -/
theorem stepWith_of_unknownOpcode {map : OpcodeMap} {s : State} (hrun : s.status = .running)
    (hop : mnemonicOf map (fetchOpcode s) = none) :
    stepWith map s = .next (raiseFault .unknownInstruction (fetchOpcode s) (latchIr s)) := by
  have hdec : decodeWith map (fetchBytesWith map s) = .error (.unknownOpcode (fetchOpcode s)) := by
    rcases fetch_cases map s with ⟨m, hm, -⟩ | ⟨-, hdec⟩
    · exact absurd hm (by simp [hop])
    · exact hdec
  rcases stepWith_cases map s with ⟨hstop, -⟩ | ⟨-, i, rest, hok, -⟩ | ⟨-, -, hstep⟩
  · exact absurd hrun hstop
  · exact absurd hok (by simp [hdec])
  · exact hstep

/-- The default map leaves 256 - 13 byte values without a kind. -/
theorem length_illegalOpcodes :
    ((List.range 256).filter fun n => BitVec.ofNat 8 n ∉ legalOpcodes).length = 243 := by decide +kernel

/-- Settles O5: an opcode outside the list names no kind of the default map, so the step raises it; the count is over
the 256 byte values. -/
theorem illegalOpcodeRaisesUnknownInstruction : Obligations.IllegalOpcodeRaisesUnknownInstruction :=
  ⟨fun _ hrun hop => stepWith_of_unknownOpcode hrun (mnemonicOf_opcodeMap_eq_none.mpr hop),
    length_illegalOpcodes, by decide⟩

end Sys2Proof.Machine

/-! HLT, LDI and PRN (41_system_io.md): the whole of each rule, the run state after any instruction, and a step that
meets an LDI. -/

namespace Sys2Proof.Machine

/-! ### Outside Running (R125) -/

theorem stepWith_of_ne_running (map : OpcodeMap) {s : State} (hstop : s.status ≠ .running) : stepWith map s = .next s := by
  rcases stepWith_cases map s with ⟨-, hstep⟩ | ⟨hrun, -⟩ | ⟨hrun, -⟩
  · exact hstep
  · exact absurd hrun hstop
  · exact absurd hrun hstop

theorem run_of_ne_running {s : State} (hstop : s.status ≠ .running) (n : Nat) : run n s = .next s := by
  induction n with
  | zero => exact run_zero s
  | succ n ih => exact (run_succ n (stepWith_of_ne_running opcodeMap hstop)).trans ih

/-! ### A step on a known opcode (R122), and the pc's advance (R123) -/

theorem stepWith_of_decode {map : OpcodeMap} {s : State} {i : Instr} {rest : List Byte} (hrun : s.status = .running)
    (hdec : decodeWith map (fetchBytesWith map s) = .ok (i, rest)) : stepWith map s = exec i (latchIr s) := by
  rcases stepWith_cases map s with ⟨hstop, -⟩ | ⟨-, i', rest', hok, hstep⟩ | ⟨-, ⟨e, herr⟩, -⟩
  · exact absurd hrun hstop
  · cases hdec.symm.trans hok
    exact hstep
  · exact absurd (hdec.symm.trans herr) nofun

theorem decode_fetchBytesWith {map : OpcodeMap} {s : State} {m : Mnemonic}
    (hm : mnemonicOf map (fetchOpcode s) = some m) :
    decodeWith map (fetchBytesWith map s) = decodeOperands m (operandBytes s (m.width - 1)) := by
  rcases fetch_cases map s with ⟨m', hm', hdec⟩ | ⟨hnone, -⟩
  · cases hm.symm.trans hm'
    exact hdec
  · exact absurd (hm.symm.trans hnone) nofun

theorem advance_eq (w : Nat) (s : State) : advance w s = { s with pc := s.pc + BitVec.ofNat 8 w } :=
  congrArg (setPc s) (pcPlus_eq s w)

/-! ### The run state after an instruction (R121, R204) -/

/-- The run state of `t` is that of `s`, or the fault of one of the operand bytes `operands` at the pc of `s`. -/
def StatusKeptOrFaulted (operands : List Byte) (s t : State) : Prop :=
  t.status = s.status ∨ ∃ r ∈ operands, 8 ≤ r.toNat ∧ t.status = .faulted .registerIndexFault s.pc r

theorem withReg_status (r : Byte) {s : State} {k : Fin 8 → State} (hk : ∀ i, (k i).status = s.status) :
    StatusKeptOrFaulted [r] s (withReg r s k) := by
  rcases withReg_cases r s k with ⟨i, -, heq⟩ | ⟨hr, heq⟩
  · exact .inl (heq ▸ hk i)
  · exact .inr ⟨r, List.mem_singleton_self r, hr, heq ▸ raiseFault_status s _ r⟩

theorem withRegs_status (a b : Byte) {s : State} {k : Fin 8 → Fin 8 → State} (hk : ∀ i j, (k i j).status = s.status) :
    StatusKeptOrFaulted [a, b] s (withRegs a b s k) := by
  rcases withRegs_cases a b s k with ⟨i, j, -, -, heq⟩ | ⟨ha, heq⟩ | ⟨-, hb, heq⟩
  · exact .inl (heq ▸ hk i j)
  · exact .inr ⟨a, by simp, ha, heq ▸ raiseFault_status s _ a⟩
  · exact .inr ⟨b, by simp, hb, heq ▸ raiseFault_status s _ b⟩

theorem jumpTo_status (a : Byte) (s : State) : StatusKeptOrFaulted [a] s (jumpTo a s) :=
  withReg_status a fun _ => rfl

/-- HLT apart, an instruction keeps the run state or faults on a register operand of its own. -/
theorem exec_status {i : Instr} {s t : State} (hi : i ≠ .hlt) (hexec : exec i s = .next t) :
    StatusKeptOrFaulted i.registerOperands s t := by
  cases i <;> cases hexec
  case hlt => exact absurd rfl hi
  case ldi a imm => exact withReg_status a fun _ => rfl
  case prn a => exact withReg_status a fun _ => rfl
  case add a b => exact withRegs_status a b fun _ _ => rfl
  case mul a b => exact withRegs_status a b fun _ _ => rfl
  case cmp a b => exact withRegs_status a b fun _ _ => rfl
  case push a => exact withReg_status a fun _ => rfl
  case pop a => exact withReg_status a fun _ => rfl
  case call a => exact withReg_status a fun _ => rfl
  case ret => exact .inl rfl
  case jmp a => exact jumpTo_status a s
  case jeq a =>
    split
    · exact jumpTo_status a s
    · exact .inl rfl
  case jne a =>
    split
    · exact .inl rfl
    · exact jumpTo_status a s

/-- R121: no instruction but HLT enters Halted. -/
theorem eq_hlt_of_exec_halted {i : Instr} {s t : State} (hexec : exec i s = .next t) (ht : t.status = .halted)
    (hs : s.status ≠ .halted) : i = .hlt := by
  by_contra hi
  rcases exec_status hi hexec with hkept | ⟨r, -, -, hfault⟩
  · exact hs (hkept.symm.trans ht)
  · exact absurd (hfault.symm.trans ht) nofun

/-- Settles O14: a halted core no longer steps, and every other instruction keeps the run state or faults. -/
theorem hltHaltsWithPcUnchanged : Obligations.HltHaltsWithPcUnchanged := by
  refine ⟨rfl, fun s => ⟨rfl, fun n u hrun => ?_⟩, fun i s t hexec ht => ?_⟩
  · have hstay := run_of_ne_running (s := halt s) nofun n
    exact Host.Outcome.next.inj (hrun.symm.trans hstay)
  · exact or_iff_not_imp_left.mpr (eq_hlt_of_exec_halted hexec ht)

/-! ### LDI (R142) -/

theorem exec_ldi_regByte (a : Fin 8) (imm : Byte) (s : State) :
    exec (.ldi (regByte a) imm) s = .next { s with regs := s.regs.set a.val imm, pc := s.pc + 3 } :=
  congrArg Host.Outcome.next ((withReg_regByte a s _).trans (advance_eq 3 (writeReg s a imm)))

theorem exec_ldi_fault {r : Byte} (hr : 8 ≤ r.toNat) (imm : Byte) (s : State) :
    exec (.ldi r imm) s = .next (raiseFault .registerIndexFault r s) :=
  congrArg Host.Outcome.next (withReg_fault hr s _)

/-- A step that meets LDI's byte takes opA and the immediate from the two addresses after `pc`. -/
theorem step_of_fetchOpcode_ldi {s : State} (hrun : s.status = .running) (hop : fetchOpcode s = 0x82) :
    step s = exec (.ldi (memRead s (pcPlus s 1)) (memRead s (pcPlus s 2))) (latchIr s) := by
  have hm : mnemonicOf opcodeMap (fetchOpcode s) = some .ldi := by rw [hop]; rfl
  exact stepWith_of_decode (rest := []) hrun (decode_fetchBytesWith hm)

/-- Settles O15: the operand check decides between the write and the fault, and at 0xFE the operand addresses wrap. -/
theorem ldiLoadsTheImmediate : Obligations.LdiLoadsTheImmediate := by
  refine ⟨fun _ _ => rfl, fun s a imm => exec_ldi_regByte a imm s, fun s r imm hr => exec_ldi_fault hr imm s,
    fun s a hrun hpc hop hopA => ?_⟩
  have hfetch : fetchOpcode s = 0x82 := by rw [fetchOpcode, hpc, hop]
  have hA : pcPlus s 1 = 0xFF := by rw [pcPlus_eq, hpc]; rfl
  have hB : pcPlus s 2 = 0x00 := by rw [pcPlus_eq, hpc]; rfl
  have hnext : s.pc + 3 = 0x01 := by rw [hpc]; rfl
  rw [step_of_fetchOpcode_ldi hrun hfetch, hA, hB, hopA, exec_ldi_regByte, latchIr_pc, hnext, latchIr, hfetch]

/-! ### PRN (R144) -/

theorem exec_prn_regByte (a : Fin 8) (s : State) :
    exec (.prn (regByte a)) s = .next { s with out := s.out ++ [readReg s a], pc := s.pc + 2 } :=
  congrArg Host.Outcome.next ((withReg_regByte a s _).trans (advance_eq 2 (emitOut s (readReg s a))))

theorem exec_prn_fault {r : Byte} (hr : 8 ≤ r.toNat) (s : State) :
    exec (.prn r) s = .next (raiseFault .registerIndexFault r s) :=
  congrArg Host.Outcome.next (withReg_fault hr s _)

/-- Settles O16: the operand check decides between the emission and the fault. -/
theorem prnAppendsTheRegister : Obligations.PrnAppendsTheRegister :=
  ⟨fun _ => rfl, fun s a => exec_prn_regByte a s, fun s _ hr => exec_prn_fault hr s⟩

end Sys2Proof.Machine

/-! ADD, MUL and CMP (42_alu.md): the operand check, the two forms of the ALU's answer, and the whole of each rule. -/

namespace Sys2Proof.Machine

/-! ### The check of two register operands (R208) -/

theorem withRegs_regByte (a b : Fin 8) (s : State) (k : Fin 8 → Fin 8 → State) :
    withRegs (regByte a) (regByte b) s k = k a b :=
  (withReg_regByte a s _).trans (withReg_regByte b s (k a))

theorem withRegs_fault_opA {r : Byte} (hr : 8 ≤ r.toNat) (b : Byte) (s : State) (k : Fin 8 → Fin 8 → State) :
    withRegs r b s k = raiseFault .registerIndexFault r s :=
  withReg_fault hr s _

theorem withRegs_fault_opB (a : Fin 8) {r : Byte} (hr : 8 ≤ r.toNat) (s : State) (k : Fin 8 → Fin 8 → State) :
    withRegs (regByte a) r s k = raiseFault .registerIndexFault r s :=
  (withReg_regByte a s _).trans (withReg_fault hr s (k a))

/-! ### An ALU instruction, by the form of the ALU's answer (R150) -/

theorem aluApply_of_toRegister {op : AluOp} {a b : Fin 8} {s : State} {v : Byte}
    (h : alu op (readReg s a) (readReg s b) = .toRegister v) :
    aluApply op (regByte a) (regByte b) s = { s with regs := s.regs.set a.val v, pc := s.pc + 3 } := by
  rw [aluApply, withRegs_regByte, h]
  exact advance_eq 3 (writeReg s a v)

theorem aluApply_of_toFlags {op : AluOp} {a b : Fin 8} {s : State} {v : Byte}
    (h : alu op (readReg s a) (readReg s b) = .toFlags v) :
    aluApply op (regByte a) (regByte b) s = { s with fl := v, pc := s.pc + 3 } := by
  rw [aluApply, withRegs_regByte, h]
  exact advance_eq 3 (setFl s v)

theorem next_aluApply_fault_opA (op : AluOp) (s : State) (r b : Byte) (hr : 8 ≤ r.toNat) :
    (.next (aluApply op r b s) : Host.Outcome State Fault Refusal) = .next (raiseFault .registerIndexFault r s) :=
  congrArg Host.Outcome.next (withRegs_fault_opA hr b s _)

theorem next_aluApply_fault_opB (op : AluOp) (s : State) (a : Fin 8) (r : Byte) (hr : 8 ≤ r.toNat) :
    (.next (aluApply op (regByte a) r s) : Host.Outcome State Fault Refusal) =
      .next (raiseFault .registerIndexFault r s) :=
  congrArg Host.Outcome.next (withRegs_fault_opB a hr s _)

/-! ### The values of the ALU, modulo 256 (R152) -/

theorem wrap8_natCast_mod (n : Nat) : wrap8 (n : Int) = BitVec.ofNat 8 (n % 256) := by
  rw [wrap8_natCast]
  exact BitVec.eq_of_toNat_eq (by simp)

theorem aluAdd_eq_ofNat_mod (u v : Byte) : aluAdd u v = BitVec.ofNat 8 ((u.toNat + v.toNat) % 256) :=
  wrap8_natCast_mod (u.toNat + v.toNat)

theorem aluMul_eq_ofNat_mod (u v : Byte) : aluMul u v = BitVec.ofNat 8 (u.toNat * v.toNat % 256) :=
  wrap8_natCast_mod (u.toNat * v.toNat)

theorem aluEq_eq_one {u v : Byte} : aluEq u v = 0x01 ↔ u = v := by
  simp [aluEq_eq]

theorem aluEq_eq_zero {u v : Byte} : aluEq u v = 0x00 ↔ u ≠ v := by
  simp [aluEq_eq]

/-! ### ADD (R153), MUL (R155) and CMP (R156) -/

theorem exec_add_regByte (a b : Fin 8) (s : State) :
    exec (.add (regByte a) (regByte b)) s = .next { s with
      regs := s.regs.set a.val (aluAdd (readReg s a) (readReg s b)), pc := s.pc + 3 } :=
  congrArg Host.Outcome.next (aluApply_of_toRegister rfl)

theorem exec_mul_regByte (a b : Fin 8) (s : State) :
    exec (.mul (regByte a) (regByte b)) s = .next { s with
      regs := s.regs.set a.val (aluMul (readReg s a) (readReg s b)), pc := s.pc + 3 } :=
  congrArg Host.Outcome.next (aluApply_of_toRegister rfl)

theorem exec_cmp_regByte (a b : Fin 8) (s : State) :
    exec (.cmp (regByte a) (regByte b)) s = .next { s with
      fl := aluEq (readReg s a) (readReg s b), pc := s.pc + 3 } :=
  congrArg Host.Outcome.next (aluApply_of_toFlags rfl)

/-- Settles O17: the operand checks decide between the fault and the write, whose value is the ALU's sum. -/
theorem addWritesTheSum : Obligations.AddWritesTheSum := by
  refine ⟨fun _ _ => rfl, fun s a b => ?_, next_aluApply_fault_opA .add, next_aluApply_fault_opB .add⟩
  rw [exec_add_regByte, aluAdd_eq_ofNat_mod]

/-- Settles O18: the operand checks decide between the fault and the write, whose value is the ALU's product. -/
theorem mulWritesTheProduct : Obligations.MulWritesTheProduct := by
  refine ⟨fun _ _ => rfl, fun s a b => ?_, next_aluApply_fault_opA .mul, next_aluApply_fault_opB .mul⟩
  rw [exec_mul_regByte, aluMul_eq_ofNat_mod]

/-- Settles O19: the operand checks decide between the fault and the write of FL, which is the ALU's equality byte. -/
theorem cmpWritesTheEqualityFlag : Obligations.CmpWritesTheEqualityFlag :=
  ⟨fun _ _ => rfl, fun s a b => ⟨_, exec_cmp_regByte a b s, aluEq_eq_one, aluEq_eq_zero, rfl⟩,
    next_aluApply_fault_opA .cmp, next_aluApply_fault_opB .cmp⟩

end Sys2Proof.Machine

/-! RET (44_call_return.md): the increment of SP as one record update, and the whole of the rule. -/

namespace Sys2Proof.Machine

/-! ### The pop's increment (R70) -/

theorem incSp_eq (s : State) : incSp s = { s with regs := s.regs.set 7 (readReg s 7 + 1) } :=
  congrArg (writeReg s spIndex) (wrap8_succ (sp s))

/-! ### RET (R182) -/

theorem exec_ret (s : State) :
    exec .ret s = .next { s with
      pc := memRead s (readReg s 7), regs := s.regs.set 7 (readReg s 7 + 1) } :=
  congrArg Host.Outcome.next (incSp_eq (setPc s (loadTop s)))

/-- Settles O23: setting the pc leaves SP as it was, so the increment acts on the SP the byte was loaded from. -/
theorem retPopsThePc : Obligations.RetPopsThePc :=
  ⟨rfl, exec_ret⟩

end Sys2Proof.Machine

/-! JMP, JEQ and JNE (45_branch.md): the whole of JMP's rule with its jump to its own address, the two branches on FL bit 0,
and the byte every step latches into IR. -/

namespace Sys2Proof.Machine

/-! ### JMP (R190) -/

theorem jumpTo_regByte (a : Fin 8) (s : State) : jumpTo (regByte a) s = { s with pc := readReg s a } :=
  withReg_regByte a s _

theorem exec_jmp_regByte (a : Fin 8) (s : State) :
    exec (.jmp (regByte a)) s = .next { s with pc := readReg s a } :=
  congrArg Host.Outcome.next (jumpTo_regByte a s)

theorem exec_jmp_fault {r : Byte} (hr : 8 ≤ r.toNat) (s : State) :
    exec (.jmp r) s = .next (raiseFault .registerIndexFault r s) :=
  congrArg Host.Outcome.next (withReg_fault hr s _)

/-- A step that meets JMP's byte takes opA from the address after `pc`. -/
theorem step_of_fetchOpcode_jmp {s : State} (hrun : s.status = .running) (hop : fetchOpcode s = 0x54) :
    step s = exec (.jmp (memRead s (pcPlus s 1))) (latchIr s) := by
  have hm : mnemonicOf opcodeMap (fetchOpcode s) = some .jmp := by rw [hop]; rfl
  exact stepWith_of_decode (rest := []) hrun (decode_fetchBytesWith hm)

/-! ### A jump to the JMP's own address (R127, R190) -/

theorem step_of_selfJump {s : State} {a : Fin 8} (hrun : s.status = .running) (hmem : holdsAtPc s [0x54, regByte a])
    (hself : readReg s a = s.pc) : step s = .next { s with ir := 0x54 } := by
  have hop : fetchOpcode s = 0x54 := by simpa [fetchOpcode, pcPlus_eq] using hmem 0 Nat.zero_lt_two
  have hopA : memRead s (pcPlus s 1) = regByte a := hmem 1 Nat.one_lt_two
  have hpc : readReg (latchIr s) a = s.pc := hself
  rw [step_of_fetchOpcode_jmp hrun hop, hopA, exec_jmp_regByte, hpc, latchIr, hop]

/-- A state that steps to itself is where every run from it ends. -/
theorem run_of_step_self {s : State} (hstep : step s = .next s) (n : Nat) : run n s = .next s := by
  induction n with
  | zero => exact run_zero s
  | succ n ih => exact (run_succ n hstep).trans ih

/-- Settles O24: after one step of a jump to its own address IR holds JMP's byte, and that state steps to itself. -/
theorem jmpSetsThePc : Obligations.JmpSetsThePc := by
  refine ⟨fun _ => rfl, fun s a => exec_jmp_regByte a s, fun s r hr => exec_jmp_fault hr s,
    fun s a hrun hmem hself n => ?_⟩
  have hfirst : step s = .next { s with ir := 0x54 } := step_of_selfJump hrun hmem hself
  have hstays : step { s with ir := 0x54 } = .next { s with ir := 0x54 } := step_of_selfJump (a := a) hrun hmem hself
  exact (run_succ n hfirst).trans (run_of_step_self hstays n)

/-! ### IR after a step (R122) -/

theorem withReg_ir (r : Byte) {s : State} {k : Fin 8 → State} (hk : ∀ i, (k i).ir = s.ir) :
    (withReg r s k).ir = s.ir := by
  rcases withReg_cases r s k with ⟨i, -, heq⟩ | ⟨-, heq⟩
  · exact heq ▸ hk i
  · exact heq ▸ raiseFault_ir s _ r

theorem withRegs_ir (a b : Byte) {s : State} {k : Fin 8 → Fin 8 → State} (hk : ∀ i j, (k i j).ir = s.ir) :
    (withRegs a b s k).ir = s.ir :=
  withReg_ir a fun i => withReg_ir b (hk i)

theorem jumpTo_ir (a : Byte) (s : State) : (jumpTo a s).ir = s.ir :=
  withReg_ir a fun _ => rfl

/-- No instruction writes IR: the fetch alone does. -/
theorem exec_ir {i : Instr} {s t : State} (hexec : exec i s = .next t) : t.ir = s.ir := by
  cases i <;> cases hexec
  case hlt => rfl
  case ldi a imm => exact withReg_ir a fun _ => rfl
  case prn a => exact withReg_ir a fun _ => rfl
  case add a b => exact withRegs_ir a b fun _ _ => rfl
  case mul a b => exact withRegs_ir a b fun _ _ => rfl
  case cmp a b => exact withRegs_ir a b fun _ _ => rfl
  case push a => exact withReg_ir a fun _ => rfl
  case pop a => exact withReg_ir a fun _ => rfl
  case call a => exact withReg_ir a fun _ => rfl
  case ret => rfl
  case jmp a => exact jumpTo_ir a s
  case jeq a =>
    split
    · exact jumpTo_ir a s
    · rfl
  case jne a =>
    split
    · rfl
    · exact jumpTo_ir a s

/-- A step while Running leaves in IR the byte at the pc it started from, whether that byte names an instruction or not. -/
theorem stepWith_ir {map : OpcodeMap} {s t : State} (hrun : s.status = .running) (hstep : stepWith map s = .next t) :
    t.ir = memRead s s.pc := by
  rcases stepWith_cases map s with ⟨hstop, -⟩ | ⟨-, i, rest, -, hexec⟩ | ⟨-, -, hraise⟩
  · exact absurd hrun hstop
  · exact exec_ir (hexec.symm.trans hstep)
  · cases hraise.symm.trans hstep
    rfl

/-! ### JEQ (R191) and JNE (R192) -/

theorem exec_jeq_regByte (a : Fin 8) (s : State) :
    exec (.jeq (regByte a)) s = .next { s with pc := if s.fl.getLsbD 0 then readReg s a else s.pc + 2 } := by
  refine congrArg Host.Outcome.next ?_
  rw [jumpTo_regByte, advance_eq, eqBit]
  split <;> rfl

theorem exec_jne_regByte (a : Fin 8) (s : State) :
    exec (.jne (regByte a)) s = .next { s with pc := if s.fl.getLsbD 0 then s.pc + 2 else readReg s a } := by
  refine congrArg Host.Outcome.next ?_
  rw [jumpTo_regByte, advance_eq, eqBit]
  split <;> rfl

/-- Settles O27: the two branches choose between the same two pcs by the same bit, and either leaves the core Running, so
that the next step latches the byte at the pc chosen. -/
theorem exactlyOneBranchIsTaken : Obligations.ExactlyOneBranchIsTaken := fun s a =>
  ⟨_, _, exec_jeq_regByte a s, exec_jne_regByte a s, rfl, rfl,
    fun hrun _ hstep => stepWith_ir hrun hstep, fun hrun _ hstep => stepWith_ir hrun hstep⟩

end Sys2Proof.Machine

/-! The operands of each kind by its format, and the decoder and the encoder as inverse to each other (R90 to R95). -/

namespace Sys2Proof

/-! ### The operands by format (R91, R101) -/

theorem operands_length (i : Instr) : i.operands.length = i.mnemonic.width - 1 := by cases i <;> rfl

theorem registerOperands_subset_operands (i : Instr) : i.registerOperands ⊆ i.operands := by
  cases i <;> simp [Instr.registerOperands, Instr.operands]

theorem takeOne_eq_ok {m : Mnemonic} {mk : Byte → Instr} {bytes rest : List Byte} {i : Instr} :
    takeOne m mk bytes = .ok (i, rest) ↔ ∃ a, i = mk a ∧ bytes = [a] ++ rest := by
  match bytes with
  | [] => simp [takeOne]
  | a :: bytes => simp [takeOne, eq_comm (a := i)]

theorem takeTwo_eq_ok {m : Mnemonic} {mk : Byte → Byte → Instr} {bytes rest : List Byte} {i : Instr} :
    takeTwo m mk bytes = .ok (i, rest) ↔ ∃ a b, i = mk a b ∧ bytes = [a, b] ++ rest := by
  match bytes with
  | [] => simp [takeTwo]
  | [a] => simp [takeTwo]
  | a :: b :: bytes => simp [takeTwo, eq_comm (a := i)]

/-- The operand bytes of a kind decode to the instruction of that kind with those operands, and to nothing else. -/
theorem decodeOperands_eq_ok {m : Mnemonic} {bytes rest : List Byte} {i : Instr} :
    decodeOperands m bytes = .ok (i, rest) ↔ i.mnemonic = m ∧ bytes = i.operands ++ rest := by
  constructor
  · intro h
    cases m <;> simp only [decodeOperands, takeOne_eq_ok, takeTwo_eq_ok, Except.ok.injEq, Prod.mk.injEq] at h
    case hlt | ret => obtain ⟨rfl, rfl⟩ := h; exact ⟨rfl, rfl⟩
    case ldi | add | mul | cmp => obtain ⟨a, b, rfl, hbytes⟩ := h; exact ⟨rfl, hbytes⟩
    case prn | push | pop | call | jmp | jeq | jne => obtain ⟨a, rfl, hbytes⟩ := h; exact ⟨rfl, hbytes⟩
  · rintro ⟨rfl, rfl⟩
    cases i <;> rfl

/-! ### Decode and encode (R94, R95) -/

theorem decodeWith_eq_ok {map : OpcodeMap} {op : Byte} {bytes rest : List Byte} {i : Instr} :
    decodeWith map (op :: bytes) = .ok (i, rest) ↔
      mnemonicOf map op = some i.mnemonic ∧ bytes = i.operands ++ rest := by
  rw [decodeWith]
  cases hm : mnemonicOf map op with
  | none => simp
  | some m => simp only [decodeOperands_eq_ok, Option.some.injEq, eq_comm (a := m)]

/-- Settles O3: the lookup finds the opcode's kind, and the operands decode by the format of that kind. -/
theorem decodeOfEncodeIsTheInstruction : Obligations.DecodeOfEncodeIsTheInstruction := fun _ hmap i _ =>
  decodeWith_eq_ok.mpr ⟨mnemonicOf_map hmap i.mnemonic, rfl⟩

/-- Settles O4: the kind that the lookup finds has that opcode, so no byte of the list is lost. -/
theorem encodeOfDecodeIsTheBytes : Obligations.EncodeOfDecodeIsTheBytes := by
  intro map bytes rest i hdec
  cases bytes with
  | nil => cases hdec
  | cons op bytes =>
    obtain ⟨hm, rfl⟩ := decodeWith_eq_ok.mp hdec
    rw [← map_of_mnemonicOf hm, encodeWith, List.cons_append]

end Sys2Proof

/-! PUSH, POP and CALL as record updates, and the whole of the rules of PUSH, POP, CALL, JEQ and JNE (43_stack.md,
44_call_return.md, 45_branch.md). -/

namespace Sys2Proof.Machine

/-! ### The push's decrement (R70) -/

theorem decSp_eq (s : State) : decSp s = { s with regs := s.regs.set 7 (readReg s 7 - 1) } :=
  congrArg (writeReg s spIndex) (wrap8_pred (sp s))

theorem readReg_decSp_eq (s : State) (a : Fin 8) :
    readReg (decSp s) a = if a = 7 then readReg s 7 - 1 else readReg s a :=
  (readReg_decSp s a).trans (if_congr eq_comm rfl rfl)

theorem storeTop_decSp (s : State) (v : Byte) :
    storeTop (decSp s) v = { s with
      regs := s.regs.set 7 (readReg s 7 - 1), mem := s.mem.write (readReg s 7 - 1).toNat v } := by
  rw [storeTop, sp_decSp, decSp_eq]
  rfl

/-- A byte read in a state whose memory is that of `s` after one store. -/
theorem memRead_of_mem_eq_write {s t : State} {a v : Byte} (h : t.mem = s.mem.write a.toNat v) (adr : Byte) :
    memRead t adr = if adr = a then v else memRead s adr := by
  rw [← memRead_memWrite, memRead, h, ← memWrite_mem, memRead]

theorem readReg_of_regs_eq_set {t : State} {r : Vector Byte 8} {i : Fin 8} {v : Byte} (h : t.regs = r.set i.val v) :
    readReg t i = v := by
  simp [readReg, h]

/-! ### PUSH (R170, R171) -/

theorem exec_push_regByte (a : Fin 8) (s : State) :
    exec (.push (regByte a)) s = .next { s with
      regs := s.regs.set 7 (readReg s 7 - 1)
      pc := s.pc + 2
      mem := s.mem.write (readReg s 7 - 1).toNat (if a = 7 then readReg s 7 - 1 else readReg s a) } := by
  refine congrArg Host.Outcome.next ((withReg_regByte a s _).trans ?_)
  rw [storeTop_decSp, readReg_decSp_eq, advance_eq]
  rfl

theorem exec_push_fault {r : Byte} (hr : 8 ≤ r.toNat) (s : State) :
    exec (.push r) s = .next (raiseFault .registerIndexFault r s) :=
  congrArg Host.Outcome.next (withReg_fault hr s _)

/-- Settles O20: the operand check decides between the fault and one store, at the SP already decremented. -/
theorem pushStoresAtTheDecrementedSp : Obligations.PushStoresAtTheDecrementedSp :=
  ⟨fun _ => rfl, fun s a => ⟨_, exec_push_regByte a s, memRead_of_mem_eq_write rfl, rfl⟩,
    fun s _ hr => exec_push_fault hr s⟩

/-! ### POP (R172, R173) -/

theorem exec_pop_regByte (a : Fin 8) (s : State) :
    exec (.pop (regByte a)) s = .next { s with
      regs := (s.regs.set a.val (memRead s (readReg s 7))).set 7
        (if a = 7 then memRead s (readReg s 7) + 1 else readReg s 7 + 1)
      pc := s.pc + 2 } := by
  have hsp : readReg (writeReg s a (loadTop s)) 7 = if a = 7 then loadTop s else readReg s 7 := readReg_writeReg s a 7 _
  refine congrArg Host.Outcome.next ((withReg_regByte a s _).trans ?_)
  rw [incSp_eq, hsp, advance_eq, ite_add]
  rfl

theorem exec_pop_fault {r : Byte} (hr : 8 ≤ r.toNat) (s : State) :
    exec (.pop r) s = .next (raiseFault .registerIndexFault r s) :=
  congrArg Host.Outcome.next (withReg_fault hr s _)

/-- Settles O21: the load reads the old SP, and the increment acts on what the load left in R7. -/
theorem popLoadsFromSpThenIncrements : Obligations.PopLoadsFromSpThenIncrements :=
  ⟨fun _ => rfl, fun s a => exec_pop_regByte a s, fun s _ hr => exec_pop_fault hr s⟩

/-! ### CALL (R180, R181) -/

theorem exec_call_regByte (a : Fin 8) (s : State) :
    exec (.call (regByte a)) s = .next { s with
      regs := s.regs.set 7 (readReg s 7 - 1)
      pc := if a = 7 then readReg s 7 - 1 else readReg s a
      mem := s.mem.write (readReg s 7 - 1).toNat (s.pc + 2) } := by
  have htarget : readReg (pushReturn s) a = if a = 7 then readReg s 7 - 1 else readReg s a := readReg_decSp_eq s a
  refine congrArg Host.Outcome.next ((withReg_regByte a s _).trans ?_)
  rw [htarget, pushReturn, storeTop_decSp, pcPlus_eq]
  rfl

theorem exec_call_fault {r : Byte} (hr : 8 ≤ r.toNat) (s : State) :
    exec (.call r) s = .next (raiseFault .registerIndexFault r s) :=
  congrArg Host.Outcome.next (withReg_fault hr s _)

/-- Settles O22: the operand check decides between the fault and the push, after which the target is read. -/
theorem callPushesTheReturnAddress : Obligations.CallPushesTheReturnAddress :=
  ⟨fun _ => rfl, fun s a => ⟨_, exec_call_regByte a s, memRead_of_mem_eq_write rfl, rfl⟩,
    fun s _ hr => exec_call_fault hr s⟩

/-- Settles O28: the three rules at register 7, whose value each reads after its own change of SP. -/
theorem stackFormsNamingTheStackPointer : Obligations.StackFormsNamingTheStackPointer := fun s =>
  ⟨⟨_, exec_push_regByte 7 s, readReg_of_regs_eq_set rfl, (memRead_of_mem_eq_write rfl _).trans (if_pos rfl)⟩,
    ⟨_, exec_pop_regByte 7 s, readReg_of_regs_eq_set rfl⟩,
    ⟨_, exec_call_regByte 7 s, readReg_of_regs_eq_set rfl, rfl, (memRead_of_mem_eq_write rfl _).trans (if_pos rfl)⟩⟩

/-! ### JEQ (R191) and JNE (R192), by FL bit 0 -/

theorem exec_jeq_taken {s : State} (hE : eqBit s = true) (r : Byte) : exec (.jeq r) s = .next (jumpTo r s) :=
  congrArg Host.Outcome.next (if_pos hE)

theorem exec_jeq_not_taken {s : State} (hE : eqBit s = false) (r : Byte) :
    exec (.jeq r) s = .next { s with pc := s.pc + 2 } := by
  rw [exec, execJeq, hE, advance_eq]
  rfl

theorem exec_jne_taken {s : State} (hE : eqBit s = false) (r : Byte) : exec (.jne r) s = .next (jumpTo r s) := by
  rw [exec, execJne, hE]
  rfl

theorem exec_jne_not_taken {s : State} (hE : eqBit s = true) (r : Byte) :
    exec (.jne r) s = .next { s with pc := s.pc + 2 } := by
  rw [exec, execJne, hE, advance_eq]
  rfl

theorem jumpTo_fault {r : Byte} (hr : 8 ≤ r.toNat) (s : State) : jumpTo r s = raiseFault .registerIndexFault r s :=
  withReg_fault hr s _

/-- Settles O25: FL bit 0 decides between the jump, which checks the operand, and the advance, which does not. -/
theorem jeqJumpsWhenEqual : Obligations.JeqJumpsWhenEqual := by
  refine ⟨fun _ => rfl, fun s a hE => ?_, fun s r hE => exec_jeq_not_taken hE r, fun s r hE hr => ?_⟩
  · rw [exec_jeq_taken hE, jumpTo_regByte]
  · rw [exec_jeq_taken hE, jumpTo_fault hr, raiseFault]

/-- Settles O26: FL bit 0 decides between the jump, which checks the operand, and the advance, which does not. -/
theorem jneJumpsWhenNotEqual : Obligations.JneJumpsWhenNotEqual := by
  refine ⟨fun _ => rfl, fun s a hE => ?_, fun s r hE => exec_jne_not_taken hE r, fun s r hE hr => ?_⟩
  · rw [exec_jne_taken hE, jumpTo_regByte]
  · rw [exec_jne_taken hE, jumpTo_fault hr, raiseFault]

end Sys2Proof.Machine

/-! All that an instruction can do (R128), as one relation: every way it completes, and the one way it faults. The
statements about all instructions at once are case splits on it. -/

namespace Sys2Proof.Machine

/-- The register operands an instruction checks, in the order of the check: none for a branch not taken (R208). -/
def checkedOperands (i : Instr) (s : State) : List Byte :=
  match i with
  | .jeq r => if eqBit s then [r] else []
  | .jne r => if eqBit s then [] else [r]
  | i => i.registerOperands

/-- The first of these operand bytes that names no register (R96). -/
def firstNonRegister (operands : List Byte) : Option Byte := operands.find? fun r => 8 ≤ r.toNat

/-- The operand an instruction faults on (R204, R208). -/
def faultOperand (i : Instr) (s : State) : Option Byte := firstNonRegister (checkedOperands i s)

/-- `Effect s i t`: executed in the state `s`, the instruction `i` gives the state `t`. -/
inductive Effect (s : State) : Instr → State → Prop where
  | hlt : Effect s .hlt { s with status := .halted }
  | ldi (a : Fin 8) (imm : Byte) : Effect s (.ldi (regByte a) imm) { s with
      regs := s.regs.set a.val imm, pc := s.pc + 3 }
  | prn (a : Fin 8) : Effect s (.prn (regByte a)) { s with out := s.out ++ [readReg s a], pc := s.pc + 2 }
  | add (a b : Fin 8) : Effect s (.add (regByte a) (regByte b)) { s with
      regs := s.regs.set a.val (aluAdd (readReg s a) (readReg s b)), pc := s.pc + 3 }
  | mul (a b : Fin 8) : Effect s (.mul (regByte a) (regByte b)) { s with
      regs := s.regs.set a.val (aluMul (readReg s a) (readReg s b)), pc := s.pc + 3 }
  | cmp (a b : Fin 8) : Effect s (.cmp (regByte a) (regByte b)) { s with
      fl := aluEq (readReg s a) (readReg s b), pc := s.pc + 3 }
  | push (a : Fin 8) : Effect s (.push (regByte a)) { s with
      regs := s.regs.set 7 (readReg s 7 - 1)
      pc := s.pc + 2
      mem := s.mem.write (readReg s 7 - 1).toNat (if a = 7 then readReg s 7 - 1 else readReg s a) }
  | pop (a : Fin 8) : Effect s (.pop (regByte a)) { s with
      regs := (s.regs.set a.val (memRead s (readReg s 7))).set 7
        (if a = 7 then memRead s (readReg s 7) + 1 else readReg s 7 + 1)
      pc := s.pc + 2 }
  | call (a : Fin 8) : Effect s (.call (regByte a)) { s with
      regs := s.regs.set 7 (readReg s 7 - 1)
      pc := if a = 7 then readReg s 7 - 1 else readReg s a
      mem := s.mem.write (readReg s 7 - 1).toNat (s.pc + 2) }
  | ret : Effect s .ret { s with pc := memRead s (readReg s 7), regs := s.regs.set 7 (readReg s 7 + 1) }
  | jmp (a : Fin 8) : Effect s (.jmp (regByte a)) { s with pc := readReg s a }
  | jeqTaken (a : Fin 8) (hE : eqBit s = true) : Effect s (.jeq (regByte a)) { s with pc := readReg s a }
  | jeqNotTaken (r : Byte) (hE : eqBit s = false) : Effect s (.jeq r) { s with pc := s.pc + 2 }
  | jneTaken (a : Fin 8) (hE : eqBit s = false) : Effect s (.jne (regByte a)) { s with pc := readReg s a }
  | jneNotTaken (r : Byte) (hE : eqBit s = true) : Effect s (.jne r) { s with pc := s.pc + 2 }
  | fault (i : Instr) (r : Byte) (hr : faultOperand i s = some r) : Effect s i (raiseFault .registerIndexFault r s)

/-! ### The operand an instruction faults on -/

theorem mem_of_firstNonRegister {operands : List Byte} {r : Byte} (h : firstNonRegister operands = some r) :
    r ∈ operands :=
  List.mem_of_find?_eq_some h

theorem le_of_firstNonRegister {operands : List Byte} {r : Byte} (h : firstNonRegister operands = some r) :
    8 ≤ r.toNat := by
  simpa using List.find?_some h

theorem exists_regByte_of_firstNonRegister {operands : List Byte} (h : firstNonRegister operands = none) {r : Byte}
    (hr : r ∈ operands) : ∃ a, r = regByte a := by
  have hlt : r.toNat < 8 := by simpa using List.find?_eq_none.mp h r hr
  cases ha : regIdx r with
  | some a => exact ⟨a, regIdx_eq_some.mp ha⟩
  | none => exact absurd hlt (not_lt.mpr (regIdx_eq_none.mp ha))

theorem withReg_of_firstNonRegister {a r : Byte} (h : firstNonRegister [a] = some r) (s : State)
    (k : Fin 8 → State) : withReg a s k = raiseFault .registerIndexFault r s := by
  obtain rfl := List.mem_singleton.mp (mem_of_firstNonRegister h)
  exact withReg_fault (le_of_firstNonRegister h) s k

/-- R208: of two operands that name no register the first is reported. -/
theorem withRegs_of_firstNonRegister {a b r : Byte} (h : firstNonRegister [a, b] = some r) (s : State)
    (k : Fin 8 → Fin 8 → State) : withRegs a b s k = raiseFault .registerIndexFault r s := by
  unfold firstNonRegister at h
  by_cases ha : 8 ≤ a.toNat
  · obtain rfl : a = r := by simpa [ha] using h
    exact withReg_fault ha s _
  · obtain ⟨i, rfl⟩ := exists_regByte_of_firstNonRegister (r := a) (operands := [a]) (by simp [firstNonRegister, ha])
      (List.mem_singleton_self a)
    refine (withReg_regByte i s _).trans (withReg_of_firstNonRegister ?_ s (k i))
    rwa [List.find?_cons_of_neg (by simpa using ha)] at h

theorem checkedOperands_subset (i : Instr) (s : State) : checkedOperands i s ⊆ i.registerOperands := by
  unfold checkedOperands
  split
  · split <;> simp [Instr.registerOperands]
  · split <;> simp [Instr.registerOperands]
  · exact List.Subset.refl _

theorem mem_of_faultOperand {i : Instr} {s : State} {r : Byte} (h : faultOperand i s = some r) :
    r ∈ i.registerOperands :=
  checkedOperands_subset i s (mem_of_firstNonRegister h)

theorem not_wellFormed_of_faultOperand {i : Instr} {s : State} {r : Byte} (h : faultOperand i s = some r) :
    ¬ WellFormed i := fun hwf =>
  absurd (hwf r (mem_of_faultOperand h)) (not_lt.mpr (le_of_firstNonRegister h))

/-! ### The relation is the execution -/

/-- R204: an instruction that faults has no other effect. -/
theorem exec_of_faultOperand {i : Instr} {s : State} {r : Byte} (h : faultOperand i s = some r) :
    exec i s = .next (raiseFault .registerIndexFault r s) := by
  cases i
  case hlt | ret => cases h
  case ldi | prn | push | pop | call | jmp => exact congrArg Host.Outcome.next (withReg_of_firstNonRegister h s _)
  case add | mul | cmp => exact congrArg Host.Outcome.next (withRegs_of_firstNonRegister h s _)
  case jeq a =>
    cases hE : eqBit s with
    | false => simp [faultOperand, checkedOperands, hE, firstNonRegister] at h
    | true =>
      rw [faultOperand, checkedOperands, hE] at h
      exact (exec_jeq_taken hE a).trans (congrArg Host.Outcome.next (withReg_of_firstNonRegister h s _))
  case jne a =>
    cases hE : eqBit s with
    | true => simp [faultOperand, checkedOperands, hE, firstNonRegister] at h
    | false =>
      rw [faultOperand, checkedOperands, hE] at h
      exact (exec_jne_taken hE a).trans (congrArg Host.Outcome.next (withReg_of_firstNonRegister h s _))

/-- What the relation says an instruction gives is what it gives. -/
theorem exec_of_effect {i : Instr} {s t : State} (h : Effect s i t) : exec i s = .next t := by
  cases h with
  | hlt => rfl
  | ldi a imm => exact exec_ldi_regByte a imm s
  | prn a => exact exec_prn_regByte a s
  | add a b => exact exec_add_regByte a b s
  | mul a b => exact exec_mul_regByte a b s
  | cmp a b => exact exec_cmp_regByte a b s
  | push a => exact exec_push_regByte a s
  | pop a => exact exec_pop_regByte a s
  | call a => exact exec_call_regByte a s
  | ret => exact exec_ret s
  | jmp a => exact exec_jmp_regByte a s
  | jeqTaken a hE => rw [exec_jeq_taken hE, jumpTo_regByte]
  | jeqNotTaken r hE => exact exec_jeq_not_taken hE r
  | jneTaken a hE => rw [exec_jne_taken hE, jumpTo_regByte]
  | jneNotTaken r hE => exact exec_jne_not_taken hE r
  | fault i r hr => exact exec_of_faultOperand hr

/-- Every instruction gives a state: it faults, or every operand it checks names a register and it completes. -/
theorem exists_effect (i : Instr) (s : State) : ∃ t, Effect s i t := by
  cases hf : faultOperand i s with
  | some r => exact ⟨_, .fault i r hf⟩
  | none =>
    have named : ∀ r ∈ checkedOperands i s, ∃ a, r = regByte a := fun r => exists_regByte_of_firstNonRegister hf
    cases i
    case hlt => exact ⟨_, .hlt⟩
    case ret => exact ⟨_, .ret⟩
    case ldi | prn | push | pop | call | jmp =>
      obtain ⟨a, rfl⟩ := named _ (List.mem_singleton_self _)
      apply Exists.intro
      constructor
    case add | mul | cmp =>
      obtain ⟨a, rfl⟩ := named _ List.mem_cons_self
      obtain ⟨b, rfl⟩ := named _ (List.mem_cons_of_mem _ (List.mem_singleton_self _))
      apply Exists.intro
      constructor
    case jeq r =>
      cases hE : eqBit s with
      | false => exact ⟨_, .jeqNotTaken r hE⟩
      | true => obtain ⟨a, rfl⟩ := named r (by simp [checkedOperands, hE]); exact ⟨_, .jeqTaken a hE⟩
    case jne r =>
      cases hE : eqBit s with
      | false => obtain ⟨a, rfl⟩ := named r (by simp [checkedOperands, hE]); exact ⟨_, .jneTaken a hE⟩
      | true => exact ⟨_, .jneNotTaken r hE⟩

/-- All that an instruction can do. -/
theorem exec_eq_next_iff {i : Instr} {s t : State} : exec i s = .next t ↔ Effect s i t := by
  refine ⟨fun h => ?_, exec_of_effect⟩
  obtain ⟨u, hu⟩ := exists_effect i s
  exact Host.Outcome.next.inj ((exec_of_effect hu).symm.trans h) ▸ hu

end Sys2Proof.Machine

/-! What each instruction leaves unchanged and what it does not depend on (R33, R42, R43, R62, R121), that it completes
(R96, R204), and the table of next pcs (R38). -/

namespace Sys2Proof.Machine

/-! ### Registers (R33) -/

theorem regIdx_regByte_eq_some {a k : Fin 8} : regIdx (regByte a) = some k ↔ a = k := by
  rw [regIdx_regByte, Option.some.injEq]

theorem getElem_set_of_ne {r : Vector Byte 8} {i k : Fin 8} (h : i ≠ k) (v : Byte) :
    (r.set i.val v)[k.val] = r[k.val] :=
  Vector.getElem_set_ne i.isLt k.isLt (Fin.val_ne_of_ne h)

theorem set_comm_of_ne {i k : Fin 8} (h : i ≠ k) (r : Vector Byte 8) (u v : Byte) :
    (r.set i.val u).set k.val v = (r.set k.val v).set i.val u :=
  Vector.set_comm u v (Fin.val_ne_of_ne h)

/-- Settles O29: a register written by an effect is one of its instruction's row. -/
theorem registerFrame : Obligations.RegisterFrame := by
  intro i s t k hexec hk
  cases exec_eq_next_iff.mp hexec with
  | ldi a | add a | mul a => exact getElem_set_of_ne (mt regIdx_regByte_eq_some.mpr hk) _
  | push | call | ret => exact getElem_set_of_ne (i := 7) (Ne.symm hk) _
  | pop a =>
    obtain ⟨ha, hsp⟩ := not_or.mp hk
    exact (getElem_set_of_ne (i := 7) (Ne.symm hsp) _).trans (getElem_set_of_ne (mt regIdx_regByte_eq_some.mpr ha) _)
  | hlt | prn | cmp | jmp | jeqTaken | jeqNotTaken | jneTaken | jneNotTaken | fault => rfl

/-- A register that an instruction writes without reading it: the destination of an LDI or of a POP. -/
theorem eq_ldi_or_pop_of_written_unread {i : Instr} {s : State} {k : Fin 8} (hw : writesReg i k)
    (hr : ¬ readsReg i s k) : (∃ imm, i = .ldi (regByte k) imm) ∨ (i = .pop (regByte k) ∧ k ≠ 7) := by
  cases i with
  | ldi a imm => exact .inl ⟨imm, by rw [regIdx_eq_some.mp hw]⟩
  | pop a =>
    rcases hw with ha | hsp
    · exact .inr ⟨by rw [regIdx_eq_some.mp ha], hr⟩
    · exact absurd hsp hr
  | add | mul | push | call => exact absurd (Or.inl hw) hr
  | ret => exact absurd hw hr
  | hlt | prn | cmp | jmp | jeq | jne => exact hw.elim

theorem exec_of_written_unread {i : Instr} {s t : State} {k : Fin 8} (v : Byte) (hexec : exec i s = .next t)
    (hw : writesReg i k) (hr : ¬ readsReg i s k) : exec i { s with regs := s.regs.set k.val v } = .next t := by
  rw [← hexec]
  rcases eq_ldi_or_pop_of_written_unread hw hr with ⟨imm, rfl⟩ | ⟨rfl, hk⟩
  · rw [exec_ldi_regByte, exec_ldi_regByte, Vector.set_set]
  · have hsp : readReg { s with regs := s.regs.set k.val v } 7 = readReg s 7 := getElem_set_of_ne hk v
    rw [exec_pop_regByte, exec_pop_regByte, hsp, Vector.set_set]
    rfl

theorem exec_of_unwritten_unread {i : Instr} {s t : State} {k : Fin 8} (v : Byte) (hexec : exec i s = .next t)
    (hw : ¬ writesReg i k) (hr : ¬ readsReg i s k) :
    exec i { s with regs := s.regs.set k.val v } = .next { t with regs := t.regs.set k.val v } := by
  have same {j : Fin 8} (hj : j ≠ k) : readReg s j = readReg { s with regs := s.regs.set k.val v } j :=
    (getElem_set_of_ne hj.symm v).symm
  have same_sp (hk : k ≠ 7) : readReg s 7 = readReg { s with regs := s.regs.set k.val v } 7 := same hk.symm
  have swap_sp (hk : k ≠ 7) (r : Vector Byte 8) (u : Byte) : (r.set 7 u).set k.val v = (r.set k.val v).set 7 u :=
    set_comm_of_ne hk.symm r u v
  have named {a : Fin 8} (ha : ¬ regIdx (regByte a) = some k) : a ≠ k := mt regIdx_regByte_eq_some.mpr ha
  refine exec_of_effect ?_
  cases exec_eq_next_iff.mp hexec with
  | hlt => exact .hlt
  | ldi a imm => rw [set_comm_of_ne (named hw)]; exact .ldi a imm
  | prn a => rw [same (named hr)]; exact .prn a
  | add a b | mul a b =>
    obtain ⟨ha, hb⟩ := not_or.mp hr
    rw [set_comm_of_ne (named ha), same (named ha), same (named hb)]; constructor
  | cmp a b =>
    obtain ⟨ha, hb⟩ := not_or.mp hr
    rw [same (named ha), same (named hb)]; exact .cmp a b
  | push a | call a =>
    obtain ⟨hsp, ha⟩ := not_or.mp hr
    rw [swap_sp hsp, same_sp hsp, same (named ha)]; constructor
  | pop a =>
    obtain ⟨ha, hsp⟩ := not_or.mp hw
    rw [swap_sp hsp, set_comm_of_ne (named ha), same_sp hsp]; exact .pop a
  | ret => rw [swap_sp hr, same_sp hr]; exact .ret
  | jmp a => rw [same (named hr)]; exact .jmp a
  | jeqTaken a hE => rw [same (named fun ha => hr ⟨hE, ha⟩)]; exact .jeqTaken a hE
  | jeqNotTaken r hE => exact .jeqNotTaken r hE
  | jneTaken a hE => rw [same (named fun ha => hr ⟨hE, ha⟩)]; exact .jneTaken a hE
  | jneNotTaken r hE => exact .jneNotTaken r hE
  | fault i r hf => exact .fault i r hf

/-- Settles O30: an unread register that is written is the destination of an LDI or of a POP; one that is neither read
nor written keeps its value through every effect. -/
theorem unreadRegisterHasNoInfluence : Obligations.UnreadRegisterHasNoInfluence := fun _ _ _ _ v hexec hr =>
  ⟨fun hw => exec_of_written_unread v hexec hw hr, fun hw => exec_of_unwritten_unread v hexec hw hr⟩

/-! ### Flags (R42, R43, R154) -/

theorem exec_fl {i : Instr} {s t : State} (hexec : exec i s = .next t) (hi : i.mnemonic ≠ .cmp) : t.fl = s.fl := by
  cases exec_eq_next_iff.mp hexec with
  | cmp => exact absurd rfl hi
  | hlt | ldi | prn | add | mul | push | pop | call | ret | jmp | jeqTaken | jeqNotTaken | jneTaken | jneNotTaken
  | fault => rfl

theorem toNat_regByte (a : Fin 8) : (regByte a).toNat = a.val :=
  Nat.mod_eq_of_lt (by omega)

theorem wellFormed_cmp_regByte (a b : Fin 8) : WellFormed (.cmp (regByte a) (regByte b)) := by
  simp [WellFormed, Instr.registerOperands, namesRegister, toNat_regByte]

/-- The operand an instruction other than JEQ and JNE faults on does not depend on the state. -/
theorem faultOperand_of_not_branch {i : Instr} (hjeq : i.mnemonic ≠ .jeq) (hjne : i.mnemonic ≠ .jne) (s : State) :
    faultOperand i s = firstNonRegister i.registerOperands := by
  cases i with
  | jeq => exact absurd rfl hjeq
  | jne => exact absurd rfl hjne
  | _ => rfl

/-- No instruction but JEQ and JNE behaves differently for another FL, which stays unless a CMP completes. -/
theorem exec_of_fl {i : Instr} {s t : State} (f : Byte) (hexec : exec i s = .next t) (hjeq : i.mnemonic ≠ .jeq)
    (hjne : i.mnemonic ≠ .jne) :
    exec i { s with fl := f } = .next { t with fl := if i.mnemonic = .cmp ∧ WellFormed i then t.fl else f } := by
  have kept (hi : i.mnemonic ≠ .cmp) : (if i.mnemonic = .cmp ∧ WellFormed i then t.fl else f) = f :=
    if_neg fun hc => hi hc.1
  refine exec_of_effect ?_
  cases exec_eq_next_iff.mp hexec with
  | cmp a b => rw [if_pos ⟨rfl, wellFormed_cmp_regByte a b⟩]; exact .cmp a b
  | jeqTaken | jeqNotTaken => exact absurd rfl hjeq
  | jneTaken | jneNotTaken => exact absurd rfl hjne
  | fault i r hr =>
    rw [if_neg fun hc => not_wellFormed_of_faultOperand hr hc.2]
    refine .fault i r ?_
    rw [← hr, faultOperand_of_not_branch hjeq hjne, faultOperand_of_not_branch hjeq hjne]
  | hlt | ldi | prn | add | mul | push | pop | call | ret | jmp => rw [kept nofun]; constructor

/-- Settles O31: CMP alone has FL in its effect, and the branches alone read it. -/
theorem flagsFrame : Obligations.FlagsFrame :=
  ⟨fun _ _ _ hexec hi => exec_fl hexec hi, fun _ _ _ f hexec hjeq hjne => exec_of_fl f hexec hjeq hjne⟩

/-! ### Memory (R62) -/

theorem storeAddr_of_faultOperand {i : Instr} {s : State} {r : Byte} (h : faultOperand i s = some r) :
    storeAddr i s = none := by
  cases i with
  | push a | call a =>
    obtain rfl := List.mem_singleton.mp (mem_of_faultOperand h)
    rw [storeAddr, regIdx_eq_none.mpr (le_of_firstNonRegister h)]
    rfl
  | _ => rfl

/-- Memory is kept where nothing is stored, and else takes one byte at the address stored to. -/
theorem exec_mem {i : Instr} {s t : State} (hexec : exec i s = .next t) :
    (storeAddr i s = none ∧ t.mem = s.mem) ∨
      ∃ adr v : Byte, storeAddr i s = some adr ∧ t.mem = s.mem.write adr.toNat v := by
  cases exec_eq_next_iff.mp hexec with
  | push a | call a =>
    refine .inr ⟨readReg s 7 - 1, _, ?_, rfl⟩
    rw [storeAddr, regIdx_regByte, sp_decSp]
    rfl
  | fault i r hr => exact .inl ⟨storeAddr_of_faultOperand hr, rfl⟩
  | hlt | ldi | prn | add | mul | cmp | pop | ret | jmp | jeqTaken | jeqNotTaken | jneTaken | jneNotTaken =>
    exact .inl ⟨rfl, rfl⟩

/-- Settles O32: by the one byte an instruction may store. -/
theorem memoryFrame : Obligations.MemoryFrame := by
  refine ⟨fun i s t adr hexec hadr => ?_, fun i s t hexec hnone => ?_⟩
  · rcases exec_mem hexec with ⟨-, hmem⟩ | ⟨a, v, ha, hmem⟩
    · exact congrArg (Memory.read · adr.toNat) hmem
    · have hne : adr ≠ a := fun h => hadr (h ▸ ha)
      exact (memRead_of_mem_eq_write hmem adr).trans (if_neg hne)
  · rcases exec_mem hexec with ⟨-, hmem⟩ | ⟨a, v, ha, -⟩
    · exact hmem
    · exact absurd (ha.symm.trans hnone) nofun

/-! ### Output and run state (R47, R49, R121) -/

theorem exec_out {i : Instr} {s t : State} (hexec : exec i s = .next t) (hi : i.mnemonic ≠ .prn) : t.out = s.out := by
  cases exec_eq_next_iff.mp hexec with
  | prn => exact absurd rfl hi
  | hlt | ldi | add | mul | cmp | push | pop | call | ret | jmp | jeqTaken | jeqNotTaken | jneTaken | jneNotTaken
  | fault => rfl

/-- Settles O33: HLT apart, an instruction keeps the run state or faults on an operand of its own. -/
theorem outputAndRunStateFrame : Obligations.OutputAndRunStateFrame := by
  intro i s t hexec
  refine ⟨exec_ir hexec, exec_out hexec, ?_⟩
  by_cases hi : i = .hlt
  · subst hi
    cases hexec
    exact .inr (.inl ⟨rfl, rfl⟩)
  · exact (exec_status hi hexec).imp_right .inr

/-! ### Completion (R96, R204) and the next pc (R38) -/

theorem exists_exec (i : Instr) (s : State) : ∃ t, exec i s = .next t :=
  (exists_effect i s).imp fun _ => exec_of_effect

/-- Settles O34: an instruction that changes the run state has an operand of 8 or more. -/
theorem wellFormedInstructionCompletes : Obligations.WellFormedInstructionCompletes := by
  intro i s hwf
  obtain ⟨t, hexec⟩ := exists_exec i s
  refine ⟨t, hexec, fun hi => ?_⟩
  rcases exec_status hi hexec with hkept | ⟨r, hmem, hr, -⟩
  · exact hkept
  · exact absurd (hwf r hmem) (not_lt.mpr hr)

/-- Settles O35: by the effect of each instruction, where no operand is at fault. -/
theorem nextPcTable : Obligations.NextPcTable := by
  intro i s hwf
  obtain ⟨t, heff⟩ := exists_effect i s
  refine ⟨t, exec_of_effect heff, ?_⟩
  cases heff with
  | hlt | ldi | prn | add | mul | cmp | push | pop | ret => rfl
  | call a => simp [nextPc, regIdx_regByte, readReg_decSp_eq]
  | jmp a => simp [nextPc, regIdx_regByte]
  | jeqTaken a hE | jneTaken a hE =>
    rw [eqBit] at hE
    simp only [nextPc, hE, regIdx_regByte]
    rfl
  | jeqNotTaken r hE | jneNotTaken r hE =>
    rw [eqBit] at hE
    simp only [nextPc, hE]
    rfl
  | fault i r hr => exact absurd hwf (not_wellFormed_of_faultOperand hr)

end Sys2Proof.Machine

/-! All that a step from Running can do (R121, R122, R203), and the step on an instruction that memory holds at `pc`
(R63, R67, R74). -/

namespace Sys2Proof.Machine

/-! ### The fetch (R66, R67) -/

theorem operandBytes_length (s : State) (n : Nat) : (operandBytes s n).length = n := by
  simp [operandBytes]

theorem operandBytes_subset (s : State) {m n : Nat} (h : m ≤ n) : operandBytes s m ⊆ operandBytes s n :=
  List.map_subset _ (List.range_subset.mpr h)

theorem width_le_three (m : Mnemonic) : m.width ≤ 3 := by cases m <;> decide

/-- As many operand bytes as a kind is wide make an instruction of that kind. -/
theorem exists_instr (m : Mnemonic) {bytes : List Byte} (h : bytes.length = m.width - 1) :
    ∃ i : Instr, i.mnemonic = m ∧ i.operands = bytes :=
  match m, bytes, h with
  | .hlt, [], _ => ⟨.hlt, rfl, rfl⟩
  | .ldi, [a, b], _ => ⟨.ldi a b, rfl, rfl⟩
  | .prn, [a], _ => ⟨.prn a, rfl, rfl⟩
  | .add, [a, b], _ => ⟨.add a b, rfl, rfl⟩
  | .mul, [a, b], _ => ⟨.mul a b, rfl, rfl⟩
  | .cmp, [a, b], _ => ⟨.cmp a b, rfl, rfl⟩
  | .push, [a], _ => ⟨.push a, rfl, rfl⟩
  | .pop, [a], _ => ⟨.pop a, rfl, rfl⟩
  | .call, [a], _ => ⟨.call a, rfl, rfl⟩
  | .ret, [], _ => ⟨.ret, rfl, rfl⟩
  | .jmp, [a], _ => ⟨.jmp a, rfl, rfl⟩
  | .jeq, [a], _ => ⟨.jeq a, rfl, rfl⟩
  | .jne, [a], _ => ⟨.jne a, rfl, rfl⟩

/-- A fetch that meets an opcode of the map delivers a whole instruction, and the decoder finds it. -/
theorem exists_decode_fetchBytesWith {map : OpcodeMap} {s : State} {m : Mnemonic}
    (hm : mnemonicOf map (fetchOpcode s) = some m) :
    ∃ i : Instr, i.mnemonic = m ∧ i.operands = operandBytes s (m.width - 1) ∧
      decodeWith map (fetchBytesWith map s) = .ok (i, []) := by
  obtain ⟨i, hi, hops⟩ := exists_instr m (operandBytes_length s (m.width - 1))
  refine ⟨i, hi, hops, ?_⟩
  rw [decode_fetchBytesWith hm, decodeOperands_eq_ok, hops, List.append_nil]
  exact ⟨hi, rfl⟩

/-! ### A step from Running -/

/-- How a step from Running under `map` comes to its next state `t`: by the effect of the instruction at `pc`, or by
UnknownInstruction. -/
inductive StepEffect (map : OpcodeMap) (s t : State) : Prop where
  | exec (i : Instr) (hop : map i.mnemonic = fetchOpcode s)
      (hops : i.operands = operandBytes s (i.mnemonic.width - 1)) (heff : Effect (latchIr s) i t)
  | unknown (hop : mnemonicOf map (fetchOpcode s) = none)
      (ht : t = raiseFault .unknownInstruction (fetchOpcode s) (latchIr s))

theorem stepEffect_of_stepWith {map : OpcodeMap} {s t : State} (hrun : s.status = .running)
    (hstep : stepWith map s = .next t) : StepEffect map s t := by
  cases hm : mnemonicOf map (fetchOpcode s) with
  | none => exact .unknown hm (Host.Outcome.next.inj (hstep.symm.trans (stepWith_of_unknownOpcode hrun hm)))
  | some m =>
    obtain ⟨i, rfl, hops, hdec⟩ := exists_decode_fetchBytesWith hm
    exact .exec i (map_of_mnemonicOf hm) hops
      (exec_eq_next_iff.mp ((stepWith_of_decode hrun hdec).symm.trans hstep))

/-- What an effect does to the run state: nothing, HLT's halt, or the fault of one operand with nothing else changed. -/
theorem effect_status {i : Instr} {s t : State} (h : Effect s i t) :
    t.status = s.status ∨ (i = .hlt ∧ t = halt s) ∨
      ∃ r ∈ i.registerOperands, 8 ≤ r.toNat ∧ t = raiseFault .registerIndexFault r s := by
  cases h with
  | hlt => exact .inr (.inl ⟨rfl, rfl⟩)
  | fault i r hr => exact .inr (.inr ⟨r, mem_of_faultOperand hr, le_of_firstNonRegister hr, rfl⟩)
  | ldi | prn | add | mul | cmp | push | pop | call | ret | jmp | jeqTaken | jeqNotTaken | jneTaken | jneNotTaken =>
    exact .inl rfl

/-- Settles O9: an instruction gives a state, an unknown opcode the faulted one, and outside Running the state stays. -/
theorem everyStepHasANextState : Obligations.EveryStepHasANextState := by
  intro map s
  rcases stepWith_cases map s with ⟨-, hstay⟩ | ⟨-, i, rest, -, hexec⟩ | ⟨-, -, hraise⟩
  · exact ⟨s, hstay⟩
  · obtain ⟨t, ht⟩ := exists_exec i (latchIr s)
    exact ⟨t, hexec.trans ht⟩
  · exact ⟨_, hraise⟩

/-! ### The run state after a step (R121, R203) -/

/-- The run state after a step from Running: Running, Halted on a HLT, or a fault with nothing written but IR, which is
that of an unknown opcode or that of an operand byte of 8 or more. -/
inductive StepStatus (map : OpcodeMap) (s t : State) : Prop where
  | running (ht : t.status = .running)
  | halted (hop : fetchOpcode s = map .hlt) (ht : t = halt (latchIr s))
  | unknown (hop : mnemonicOf map (fetchOpcode s) = none)
      (ht : t = raiseFault .unknownInstruction (fetchOpcode s) (latchIr s))
  | registerIndex (r : Byte) (hr : 8 ≤ r.toNat) (hmem : r ∈ operandBytes s 2)
      (ht : t = raiseFault .registerIndexFault r (latchIr s))

theorem stepStatus_of_stepWith {map : OpcodeMap} {s t : State} (hrun : s.status = .running)
    (hstep : stepWith map s = .next t) : StepStatus map s t := by
  cases stepEffect_of_stepWith hrun hstep with
  | unknown hop ht => exact .unknown hop ht
  | exec i hop hops heff =>
    rcases effect_status heff with hkept | ⟨rfl, ht⟩ | ⟨r, hmem, hr, ht⟩
    · exact .running (hkept.trans hrun)
    · exact .halted hop.symm ht
    · refine .registerIndex r hr ?_ ht
      have hw : i.mnemonic.width - 1 ≤ 2 := Nat.sub_le_of_le_add (width_le_three i.mnemonic)
      exact operandBytes_subset s hw (hops ▸ registerOperands_subset_operands i hmem)

theorem step_of_fetchOpcode_hlt {s : State} (hrun : s.status = .running) (hop : fetchOpcode s = 0x01) :
    step s = .next (halt (latchIr s)) := by
  have hm : mnemonicOf opcodeMap (fetchOpcode s) = some .hlt := by rw [hop]; rfl
  exact stepWith_of_decode (rest := []) hrun (decode_fetchBytesWith hm)

theorem start_of_idle {s : State} (h : s.status = .idle) : start s = { s with status := .running } := by
  rw [start, h]

theorem start_of_ne_idle {s : State} (h : s.status ≠ .idle) : start s = s := by
  unfold start
  split
  · next hidle => exact absurd hidle h
  all_goals rfl

/-- Settles O10: 0x01 is HLT's opcode alone, and each other way a step ends is Running or a fault at `pc`. -/
theorem runStateTransitions : Obligations.RunStateTransitions := by
  refine ⟨fun s t hstep hrun => ⟨fun hop => ?_, fun hop => ?_⟩, fun s => start_of_idle, fun s => start_of_ne_idle⟩
  · rw [← Host.Outcome.next.inj ((step_of_fetchOpcode_hlt hrun hop).symm.trans hstep)]
    rfl
  · cases stepStatus_of_stepWith hrun hstep with
    | running ht => exact .inl ht
    | halted hhlt => exact absurd hhlt hop
    | unknown _ ht => exact .inr ⟨_, _, congrArg State.status ht⟩
    | registerIndex r _ _ ht => exact .inr ⟨_, _, congrArg State.status ht⟩

/-- Settles O11: both ways a step faults raise the fault in the state whose IR alone has changed. -/
theorem faultIsPrecise : Obligations.FaultIsPrecise := by
  intro s t k p b hrun hstep hfault
  cases stepStatus_of_stepWith hrun hstep with
  | running ht => exact absurd (ht.symm.trans hfault) nofun
  | halted _ ht => subst ht; cases hfault
  | unknown _ ht => subst ht; cases hfault; rfl
  | registerIndex r _ _ ht => subst ht; cases hfault; rfl

/-! ### A step on an instruction that memory holds (R63, R67, R90) -/

/-- Settles O6: that is `stepWith` at the default map. -/
theorem stepRunsTheDecodedInstruction : Obligations.StepRunsTheDecodedInstruction := fun _ _ _ hrun hdec =>
  stepWith_of_decode hrun hdec

/-- The bytes a state holds at `pc` are its opcode byte and the operand bytes after it. -/
theorem holdsAtPc_cons {s : State} {op : Byte} {operands : List Byte} (h : holdsAtPc s (op :: operands)) :
    fetchOpcode s = op ∧ operandBytes s operands.length = operands := by
  constructor
  · simpa [fetchOpcode, pcPlus_eq] using h 0 (Nat.zero_lt_succ _)
  · refine List.ext_getElem (operandBytes_length s _) fun k hk hk' => ?_
    simpa [operandBytes] using h (k + 1) (Nat.succ_lt_succ hk')

theorem stepWith_of_holdsAtPc {map : OpcodeMap} {s : State} {i : Instr} (hmap : map.Admissible)
    (hrun : s.status = .running) (hmem : holdsAtPc s (encodeWith map i)) :
    stepWith map s = exec i { s with ir := map i.mnemonic } := by
  obtain ⟨hop, hops⟩ := holdsAtPc_cons hmem
  have hdec : decodeWith map (fetchBytesWith map s) = .ok (i, []) := by
    rw [decode_fetchBytesWith (m := i.mnemonic) (by rw [hop, mnemonicOf_map hmap]), ← operands_length, hops,
      decodeOperands_eq_ok, List.append_nil]
    exact ⟨rfl, rfl⟩
  rw [stepWith_of_decode hrun hdec, latchIr, hop]

theorem opcodeMap_admissible : opcodeMap.Admissible :=
  ⟨fun m n => List.inj_on_of_nodup_map (f := opcodeMap) (by decide) m.mem_all n.mem_all, rfl⟩

/-- Settles O7: the fetch reads what the encoder writes, and the decoder finds the instruction in it. -/
theorem stepRunsTheEncodedInstruction : Obligations.StepRunsTheEncodedInstruction :=
  ⟨fun _ _ _ hmap hrun hmem => stepWith_of_holdsAtPc hmap hrun hmem,
    fun _ _ hrun hmem => stepWith_of_holdsAtPc opcodeMap_admissible hrun hmem⟩

/-- Settles O12: the operand was fetched before the push, which stores at the operand's address. -/
theorem operandIsReadBeforeOwnStackWrite : Obligations.OperandIsReadBeforeOwnStackWrite := by
  intro s a hrun hmem ha hsp
  have hstep : step s = exec (.call (regByte a)) { s with ir := 0x50 } :=
    stepWith_of_holdsAtPc (i := .call (regByte a)) opcodeMap_admissible hrun hmem
  obtain ⟨-, hcall, -⟩ := callPushesTheReturnAddress
  obtain ⟨t, hexec, hread, ht⟩ := hcall { s with ir := 0x50 } a
  refine ⟨t, hstep.trans hexec, (congrArg State.status ht).trans hrun, ?_, ?_⟩
  · exact (congrArg State.pc ht).trans (if_neg ha)
  · exact (hread (s.pc + 1)).trans (if_pos hsp.symm)

/-- Settles O13: the push stores at the address after the PUSH, where the next step fetches. -/
theorem fetchSeesThePushedByte : Obligations.FetchSeesThePushedByte := by
  intro s a hrun hmem hsp
  have hstep : step s = exec (.push (regByte a)) { s with ir := 0x45 } :=
    stepWith_of_holdsAtPc (i := .push (regByte a)) opcodeMap_admissible hrun hmem
  obtain ⟨-, hpush, -⟩ := pushStoresAtTheDecrementedSp
  obtain ⟨t, hexec, hread, ht⟩ := hpush { s with ir := 0x45 } a
  obtain ⟨u, hu⟩ := everyStepHasANextState opcodeMap t
  have hpc : t.pc = s.pc + 2 := congrArg State.pc ht
  refine ⟨t, u, hstep.trans hexec, hpc, hu, ?_⟩
  rw [stepWith_ir ((congrArg State.status ht).trans hrun) hu, hpc, hread]
  exact if_pos hsp.symm

end Sys2Proof.Machine

/-! The invariant of the machine (R41, R42, R121, R203), and what every run keeps, by one induction over its steps. -/

namespace Sys2Proof.Machine

/-! ### The invariant and a step -/

theorem aluEq_legal (u v : Byte) : aluEq u v = 0x00 ∨ aluEq u v = 0x01 := by
  rw [aluEq_eq]
  split
  · exact .inr rfl
  · exact .inl rfl

theorem effect_fl_legal {i : Instr} {s t : State} (h : Effect s i t) (hfl : s.fl = 0x00 ∨ s.fl = 0x01) :
    t.fl = 0x00 ∨ t.fl = 0x01 := by
  cases h with
  | cmp a b => exact aluEq_legal _ _
  | hlt | ldi | prn | add | mul | push | pop | call | ret | jmp | jeqTaken | jeqNotTaken | jneTaken | jneNotTaken
  | fault => exact hfl

theorem exec_mem_wf {i : Instr} {s t : State} (hexec : exec i s = .next t) (hwf : s.mem.wf) : t.mem.wf := by
  rcases exec_mem hexec with ⟨-, hmem⟩ | ⟨adr, v, -, hmem⟩
  · rwa [hmem]
  · rw [hmem]
    exact Memory.write_wf hwf adr.isLt v

theorem statusLegal_of_running {s : State} (h : s.status = .running) : statusLegal s := by
  rw [statusLegal, h]
  trivial

/-- The run state that a step leaves tells the truth about the bytes at `pc`. -/
theorem statusLegal_of_stepStatus {s t : State} (h : StepStatus opcodeMap s t) : statusLegal t := by
  cases h with
  | running ht => exact statusLegal_of_running ht
  | halted hop ht => subst ht; exact hop
  | unknown hop ht => subst ht; exact ⟨rfl, rfl, hop⟩
  | registerIndex r hr hmem ht => subst ht; exact ⟨rfl, hr, hmem⟩

/-- Settles O40: memory and FL by the effect of the instruction, the run state by the ways a step can end. -/
theorem stepKeepsTheInvariant : Obligations.StepKeepsTheInvariant := by
  intro s t hinv hstep
  by_cases hrun : s.status = .running
  · obtain ⟨hwf, hfl, -⟩ := hinv
    have hlegal : statusLegal t := statusLegal_of_stepStatus (stepStatus_of_stepWith hrun hstep)
    cases stepEffect_of_stepWith hrun hstep with
    | exec i _ _ heff => exact ⟨exec_mem_wf (exec_of_effect heff) hwf, effect_fl_legal heff hfl, hlegal⟩
    | unknown _ ht => subst ht; exact ⟨hwf, hfl, hlegal⟩
  · cases hstep.symm.trans (stepWith_of_ne_running opcodeMap hrun)
    exact hinv

/-! ### Runs (R127) -/

/-- What every step keeps, every run keeps. -/
theorem run_keeps {P : State → Prop} (hP : ∀ s t, P s → step s = .next t → P t) (n : Nat) {s : State} (hs : P s) :
    ∃ t, run n s = .next t ∧ P t := by
  induction n generalizing s with
  | zero => exact ⟨s, run_zero s, hs⟩
  | succ n ih =>
    obtain ⟨u, hu⟩ := everyStepHasANextState opcodeMap s
    rw [run_succ n hu]
    exact ih (hP s u hs hu)

/-- Settles O43: by the step's invariant along the run. -/
theorem runKeepsTheInvariant : Obligations.RunKeepsTheInvariant := fun n _ hs =>
  run_keeps stepKeepsTheInvariant n hs

/-- Settles O8: a state outside Running is where every run from it ends. -/
theorem noStepOutsideRunning : Obligations.NoStepOutsideRunning := by
  intro n s hstop
  refine run_of_ne_running (fun hrun => ?_) n
  rcases hstop with hidle | hhalt | ⟨k, p, b, hfault⟩
  · exact absurd (hrun.symm.trans hidle) nofun
  · exact absurd (hrun.symm.trans hhalt) nofun
  · exact absurd (hrun.symm.trans hfault) nofun

/-- The core is not stopped by UnsupportedALUOperation. -/
def NoAluFault (s : State) : Prop := ∀ p b, s.status ≠ .faulted .unsupportedALUOperation p b

theorem step_noAluFault {s t : State} (hs : NoAluFault s) (hstep : step s = .next t) : NoAluFault t := by
  by_cases hrun : s.status = .running
  · intro p b hfault
    cases stepStatus_of_stepWith hrun hstep with
    | running ht => exact absurd (ht.symm.trans hfault) nofun
    | halted _ ht => subst ht; cases hfault
    | unknown _ ht => subst ht; cases hfault
    | registerIndex _ _ _ ht => subst ht; cases hfault
  · cases hstep.symm.trans (stepWith_of_ne_running opcodeMap hrun)
    exact hs

/-- Settles O39: no step raises the ALU's fault, since no instruction passes the ALU another operation. -/
theorem unsupportedAluOperationIsUnreachable : Obligations.UnsupportedAluOperationIsUnreachable := by
  refine ⟨fun code a b s => withRegs_regByte a b s _, fun n s t hs hrun => ?_⟩
  obtain ⟨u, hu, hkept⟩ := run_keeps (fun _ _ => step_noAluFault) n hs
  cases hrun.symm.trans hu
  exact hkept

/-! ### The output log (R49) -/

theorem effect_out {i : Instr} {s t : State} (h : Effect s i t) : ∃ vs, t.out = s.out ++ vs ∧ vs.length ≤ 1 := by
  cases h with
  | prn a => exact ⟨[readReg s a], rfl, le_rfl⟩
  | hlt | ldi | add | mul | cmp | push | pop | call | ret | jmp | jeqTaken | jeqNotTaken | jneTaken | jneNotTaken
  | fault => exact ⟨[], (List.append_nil _).symm, Nat.zero_le 1⟩

theorem step_out {s t : State} (hstep : step s = .next t) : ∃ vs, t.out = s.out ++ vs ∧ vs.length ≤ 1 := by
  by_cases hrun : s.status = .running
  · cases stepEffect_of_stepWith hrun hstep with
    | exec i _ _ heff => exact effect_out (s := latchIr s) heff
    | unknown _ ht => subst ht; exact ⟨[], (List.append_nil _).symm, Nat.zero_le 1⟩
  · cases hstep.symm.trans (stepWith_of_ne_running opcodeMap hrun)
    exact ⟨[], (List.append_nil _).symm, Nat.zero_le 1⟩

/-- Settles O45: the values of the first step come before those of the rest of the run. -/
theorem outputLogOnlyGrows : Obligations.OutputLogOnlyGrows := by
  intro n
  induction n with
  | zero =>
    intro s t hrun
    cases hrun
    exact ⟨[], (List.append_nil _).symm, le_rfl⟩
  | succ n ih =>
    intro s t hrun
    obtain ⟨u, hu⟩ := everyStepHasANextState opcodeMap s
    obtain ⟨vs, hvs, hlen⟩ := step_out hu
    obtain ⟨ws, hws, hlen'⟩ := ih u t ((run_succ n hu).symm.trans hrun)
    refine ⟨vs ++ ws, by rw [hws, hvs, List.append_assoc], ?_⟩
    rw [List.length_append]
    omega

/-! ### Reset and launch (R230, R231) -/

theorem resetWith_inv (gpr : Fin 7 → Byte) (ir : Byte) : (State.resetWith gpr ir).Inv :=
  ⟨resetWith_wf gpr ir, .inl rfl, trivial⟩

/-- Settles O41: `State.reset` is one of the reset states. -/
theorem resetMeetsTheInvariant : Obligations.ResetMeetsTheInvariant :=
  ⟨resetWith_inv, resetWith_inv _ _⟩

theorem loadImage_of_idle {s : State} (h : s.status = .idle) (image : List Byte) :
    loadImage image s = writeBytes image 0x00 s := by
  rw [loadImage, h]

theorem loadImage_of_ne_idle {s : State} (h : s.status ≠ .idle) (image : List Byte) : loadImage image s = s := by
  unfold loadImage
  split
  · next hidle => exact absurd hidle h
  all_goals rfl

/-- Load and start as one act of an Idle core: memory and the run state are written, and nothing else (R231). -/
theorem start_loadImage_of_idle {s : State} (h : s.status = .idle) (image : List Byte) :
    start (loadImage image s) = { s with status := .running, mem := (writeBytes image 0x00 s).mem } := by
  obtain ⟨m, hm⟩ := writeBytes_frame image 0x00 s
  rw [loadImage_of_idle h, hm, start_of_idle (s := { s with mem := m }) h]

theorem start_loadImage_of_ne_idle {s : State} (h : s.status ≠ .idle) (image : List Byte) :
    start (loadImage image s) = s := by
  rw [loadImage_of_ne_idle h, start_of_ne_idle h]

theorem start_loadImage_inv {s : State} (hs : s.Inv) (image : List Byte) : (start (loadImage image s)).Inv := by
  by_cases hidle : s.status = .idle
  · obtain ⟨hwf, hfl, -⟩ := hs
    rw [start_loadImage_of_idle hidle]
    exact ⟨writeBytes_wf image 0x00 hwf, hfl, trivial⟩
  · rwa [start_loadImage_of_ne_idle hidle]

theorem launch_of_ok {source : LaunchSource} {image : List Byte} (h : readImage source = .ok image) (s : State) :
    launch source s = (start (loadImage image s), none) := by
  rw [launch, h]

theorem launch_of_error {source : LaunchSource} {e : LoadError} (h : readImage source = .error e) (s : State) :
    launch source s = (s, some e) := by
  rw [launch, h]

/-- Settles O42: a launch loads and starts, or leaves the core. -/
theorem launchKeepsTheInvariant : Obligations.LaunchKeepsTheInvariant := by
  intro source s hs
  cases h : readImage source with
  | ok image =>
    rw [launch_of_ok h]
    exact start_loadImage_inv hs image
  | error e => rwa [launch_of_error h]

end Sys2Proof.Machine

/-! Memory as data: the canonical form is fixed by what it reads as, and the load image in memory (R48, R231, R236); the
values after reset (R30, R230). -/

namespace Sys2Proof.Machine

/-! ### The canonical form (log entry 13) -/

/-- An address that does not read as an unlisted one is listed with what it reads as. -/
theorem Memory.mem_of_read_ne {m : Memory} {a : Nat} (h : m.read a ≠ Memory.unlisted) : (a, m.read a) ∈ m := by
  induction m with
  | nil => exact absurd rfl h
  | cons c m ih =>
    obtain ⟨b, w⟩ := c
    rw [Memory.read] at h ⊢
    split
    · next hb => simp [hb]
    · next hb => exact List.mem_cons_of_mem _ (ih (by rwa [if_neg hb] at h))

/-- With rising addresses a listed cell is the one its address reads as. -/
theorem Memory.read_of_mem {m : Memory} (hm : m.Pairwise fun c d => c.1 < d.1) {c : Host.Cell} (hc : c ∈ m) :
    m.read c.1 = c.2 := by
  induction m with
  | nil => cases hc
  | cons d m ih =>
    obtain ⟨hd, hm⟩ := List.pairwise_cons.mp hm
    rcases List.mem_cons.mp hc with rfl | hc
    · exact if_pos rfl
    · exact (if_neg (hd c hc).ne).trans (ih hm hc)

theorem Memory.mem_iff_read {m : Memory} (hm : m.wf) (c : Host.Cell) :
    c ∈ m ↔ c.1 < Config.memSize ∧ c.2 ≠ Memory.unlisted ∧ m.read c.1 = c.2 := by
  constructor
  · intro hc
    obtain ⟨hlt, hne⟩ := hm.2 c hc
    exact ⟨hlt, hne, Memory.read_of_mem hm.1 hc⟩
  · rintro ⟨-, hne, hread⟩
    have hlisted : (c.1, m.read c.1) ∈ m := Memory.mem_of_read_ne (hread.trans_ne hne)
    rwa [hread] at hlisted

theorem Memory.nodup {m : Memory} (hm : m.wf) : m.Nodup :=
  hm.1.imp fun hlt => ne_of_apply_ne Prod.fst hlt.ne

/-- Settles O44: equal reads give equal sets of cells, and a set of cells has one order of rising addresses. -/
theorem canonicalMemoryIsExtensional : Obligations.CanonicalMemoryIsExtensional := by
  intro m n hm hn hread
  have hmem (c : Host.Cell) : c ∈ m ↔ c ∈ n := by
    rw [Memory.mem_iff_read hm, Memory.mem_iff_read hn]
    exact and_congr_right fun hlt => by rw [hread c.1 hlt]
  have hperm : m.Perm n := (List.perm_ext_iff_of_nodup (Memory.nodup hm) (Memory.nodup hn)).mpr hmem
  exact hperm.eq_of_pairwise (fun c d _ _ hcd hdc => absurd hcd hdc.asymm) hm.1 hn.1

/-! ### The load image in memory (R236) -/

/-- Up to 256 bytes stored one after another do not meet: each is read at its own distance from the first. -/
theorem memRead_writeBytes (bytes : List Byte) (a : Byte) (s : State) (hlen : bytes.length ≤ 256) (adr : Byte) :
    memRead (writeBytes bytes a s) adr = bytes.getD (adr - a).toNat (memRead s adr) := by
  induction bytes generalizing a s with
  | nil => rfl
  | cons b bytes ih =>
    rw [List.length_cons] at hlen
    rw [writeBytes, ih _ _ (by omega), wrap8_succ, memRead_memWrite]
    by_cases h : adr = a
    · have hfar : bytes.length ≤ (adr - (a + 1)).toNat := by
        have hlast : (adr - (a + 1)).toNat = 255 := by bv_omega
        omega
      rw [List.getD_eq_default _ _ hfar, if_pos h, h, BitVec.sub_self]
      rfl
    · have hnext : (adr - a).toNat = (adr - (a + 1)).toNat + 1 := by bv_omega
      rw [hnext, List.getD_cons_succ, if_neg h]

/-- Settles O47: the image's addresses begin at 0x00, so the distance from the first byte is the address. -/
theorem loadedImageIsInMemory : Obligations.LoadedImageIsInMemory := by
  intro image s hidle hlen
  rw [start_loadImage_of_idle hidle]
  refine ⟨fun adr => ?_, rfl⟩
  have hread := memRead_writeBytes image 0x00 s hlen adr
  rwa [show adr - 0x00 = adr from BitVec.sub_zero adr] at hread

/-! ### Reset (R30, R230) -/

/-- Settles O46: field by field; the seven general registers are listed in the order of GPR_RESET. -/
theorem resetValues : Obligations.ResetValues := by
  refine ⟨fun gpr ir => ⟨rfl, fun k => ?_, rfl, rfl, rfl, rfl, fun _ => rfl, rfl⟩, _, _, rfl⟩
  fin_cases k <;> rfl

end Sys2Proof.Machine

/-! The opcode table and its words (R91, R93, R101), the ALU's laws (R152, R157), and the pairs PUSH with POP and CALL
with RET (R174, R183). -/

namespace Sys2Proof.Machine

/-! ### The opcode table -/

theorem encode_length (i : Instr) : (encode i).length = i.mnemonic.width := by cases i <;> rfl

/-- Settles O1: the bytes and the operand counts are the table's rows. -/
theorem opcodeTableValues : Obligations.OpcodeTableValues :=
  ⟨⟨rfl, rfl, rfl, rfl, rfl, rfl, rfl, rfl, rfl, rfl, rfl, rfl, rfl⟩,
    fun i => ⟨encode_length i, (encode_length i).trans_le (width_le_three i.mnemonic)⟩,
    Laws.EncodingShape.opcode_counts⟩

/-- Settles O2: the decoder runs on the eight words. -/
theorem writtenOutWordsDecode : Obligations.WrittenOutWordsDecode :=
  ⟨rfl, rfl, rfl, rfl, rfl, rfl, rfl, rfl⟩

/-! ### The ALU -/

/-- Settles O38: the ALU's results are those of the 8-bit words, whose laws these are. -/
theorem aluArithmeticLaws : Obligations.AluArithmeticLaws := by
  intro u v
  refine ⟨?_, ?_, aluEq_eq_one, aluEq_eq_zero, ?_, ?_, ?_, ?_, ?_⟩
  · rw [aluAdd_eq, BitVec.toNat_add]
  · rw [aluMul_eq, BitVec.toNat_mul]
  · rw [aluAdd_eq, aluAdd_eq, BitVec.add_comm]
  · rw [aluMul_eq, aluMul_eq, BitVec.mul_comm]
  · exact (aluAdd_eq u 0).trans (BitVec.add_zero u)
  · exact (aluMul_eq u 0).trans BitVec.mul_zero
  · exact (aluMul_eq u 1).trans (BitVec.mul_one u)

/-! ### PUSH then POP, CALL then RET -/

theorem set_readReg (s : State) (a : Fin 8) : s.regs.set a.val (readReg s a) = s.regs :=
  Vector.set_getElem_self a.isLt

/-- Register `b` set back last and any other register `a` before it: the registers are as they were. -/
theorem set_set_set_readReg (s : State) (a b : Fin 8) (v : Byte) {w : Byte} (hw : a ≠ b → w = readReg s a) :
    ((s.regs.set b.val v).set a.val w).set b.val (readReg s b) = s.regs := by
  by_cases hab : a = b
  · subst hab
    rw [Vector.set_set, Vector.set_set, set_readReg]
  · rw [hw hab, set_comm_of_ne (Ne.symm hab), set_readReg, Vector.set_set, set_readReg]

/-- Settles O36: POP reads the byte PUSH stored, and its increment undoes the decrement. -/
theorem pushThenPopRestores : Obligations.PushThenPopRestores := by
  intro s a
  obtain ⟨-, hstore, -⟩ := pushStoresAtTheDecrementedSp
  obtain ⟨t, hpush, hread, ht⟩ := hstore s a
  have hregs : t.regs = s.regs.set 7 (readReg s 7 - 1) := congrArg State.regs ht
  have hpc : t.pc = s.pc + 2 := congrArg State.pc ht
  have hsp : readReg t 7 = readReg s 7 - 1 := readReg_of_regs_eq_set hregs
  have htop : memRead t (readReg t 7) = if a = 7 then readReg s 7 - 1 else readReg s a :=
    (hread _).trans (if_pos hsp)
  have hinc : (if a = 7 then memRead t (readReg t 7) + 1 else readReg t 7 + 1) = readReg s 7 := by
    rw [htop, hsp]
    split <;> exact BitVec.sub_add_cancel _ _
  refine ⟨t, _, hpush, exec_pop_regByte a t, ?_, ?_, ?_⟩
  · rw [hinc, hregs]
    exact set_set_set_readReg s a 7 _ fun ha => htop.trans (if_neg ha)
  · exact (congrArg (· + 2) hpc).trans (BitVec.add_assoc s.pc 2 2)
  · exact (hread _).trans (if_pos rfl)

/-- Settles O37: RET loads the return address from the SP that CALL left, and its increment undoes the decrement. -/
theorem callThenRetReturns : Obligations.CallThenRetReturns := by
  intro s t u a hcall hsp htop
  obtain ⟨-, hstore, -⟩ := callPushesTheReturnAddress
  obtain ⟨t', hcall', hread, ht⟩ := hstore s a
  cases hcall.symm.trans hcall'
  have hpushed : readReg t 7 = readReg s 7 - 1 := readReg_of_regs_eq_set (congrArg State.regs ht)
  refine ⟨_, exec_ret u, htop.trans ((hread _).trans (if_pos hpushed)), (readReg_of_regs_eq_set rfl).trans ?_⟩
  rw [hsp, hpushed, BitVec.sub_add_cancel]

end Sys2Proof.Machine

/-! The host's side (R145, R206, R207, R236): the lines of a load image, load errors, exit statuses, numerals. -/

namespace Sys2Proof.Machine

/-! ### The token of a line (R236) -/

theorem mem_dropWhile_of_neg {α : Type} {p : α → Bool} {l : List α} {x : α} (hx : x ∈ l) (hp : ¬ p x) :
    x ∈ l.dropWhile p := by
  rw [← List.takeWhile_append_dropWhile (p := p) (l := l)] at hx
  exact (List.mem_append.mp hx).resolve_left fun h => hp (List.mem_takeWhile_imp h)

theorem ne_hash_of_isBlank {c : Char} (h : isBlank c) : c ≠ '#' := by
  rintro rfl
  exact absurd h (by decide)

/-- What a line is without its comment. -/
theorem takeWhile_comment {content tail : List Char} (hcontent : '#' ∉ content)
    (htail : tail = [] ∨ ∃ comment, tail = '#' :: comment) :
    ((content ++ tail).takeWhile fun c => c != '#') = content := by
  have hne : ∀ c ∈ content, (c != '#') = true := fun c hc => bne_iff_ne.mpr fun h => hcontent (h ▸ hc)
  rw [List.takeWhile_append_of_pos hne]
  rcases htail with rfl | ⟨comment, rfl⟩ <;> simp

/-- A character before the comment that is no blank is in the token. -/
theorem mem_lineToken {content tail : List Char} (hcontent : '#' ∉ content)
    (htail : tail = [] ∨ ∃ comment, tail = '#' :: comment) {c : Char} (hc : c ∈ content) (hblank : ¬ isBlank c) :
    c ∈ lineToken (content ++ tail) := by
  rw [lineToken, takeWhile_comment hcontent htail, List.mem_reverse]
  exact mem_dropWhile_of_neg (List.mem_reverse.mpr (mem_dropWhile_of_neg hc hblank)) hblank

theorem hash_not_mem_content {before token after : List Char} (hbefore : ∀ c ∈ before, isBlank c)
    (hafter : ∀ c ∈ after, isBlank c) (htoken : '#' ∉ token) : '#' ∉ before ++ token ++ after := by
  simp only [List.mem_append, not_or]
  exact ⟨⟨fun h => ne_hash_of_isBlank (hbefore _ h) rfl, htoken⟩, fun h => ne_hash_of_isBlank (hafter _ h) rfl⟩

/-- The blanks around a token that holds none fall away, and so does the comment. -/
theorem lineToken_between {before token after tail : List Char} (hbefore : ∀ c ∈ before, isBlank c)
    (hafter : ∀ c ∈ after, isBlank c) (htail : tail = [] ∨ ∃ comment, tail = '#' :: comment) (hhash : '#' ∉ token)
    (hblank : ∀ c ∈ token, ¬ isBlank c) : lineToken (before ++ token ++ after ++ tail) = token := by
  have hback : (token ++ after).reverse.dropWhile isBlank = token.reverse := by
    rw [List.reverse_append, List.dropWhile_append_of_pos fun c hc => hafter c (List.mem_reverse.mp hc)]
    exact List.dropWhile_eq_self_iff.mpr fun _ => hblank _ (List.mem_reverse.mp (List.getElem_mem _))
  rw [lineToken, takeWhile_comment (hash_not_mem_content hbefore hafter hhash) htail, List.append_assoc,
    List.dropWhile_append_of_pos hbefore]
  cases token with
  | nil => rw [List.nil_append, List.dropWhile_eq_nil_iff.mpr hafter]; rfl
  | cons c cs =>
    rw [List.cons_append, List.dropWhile_cons_of_neg (hblank c List.mem_cons_self), ← List.cons_append, hback,
      List.reverse_reverse]

/-! ### Literals (R236) -/

theorem parseBits_digits (bits : List Bool) (v : Nat) :
    parseBits (bits.map fun b => if b then '1' else '0') v = some (bits.foldl (fun n b => 2 * n + b.toNat) v) := by
  induction bits generalizing v with
  | nil => rfl
  | cons b bits ih => cases b <;> exact ih _

theorem parseBits_eq_none {cs : List Char} {c : Char} (hc : c ∈ cs) (h0 : c ≠ '0') (h1 : c ≠ '1') (v : Nat) :
    parseBits cs v = none := by
  induction cs generalizing v with
  | nil => cases hc
  | cons d cs ih =>
    rw [parseBits]
    rcases List.mem_cons.mp hc with rfl | hc
    · rw [if_neg (by simpa using h0), if_neg (by simpa using h1)]
    · rw [ih hc, ih hc, ite_self, ite_self]

theorem parseLine_of_nil {line : List Char} (h : lineToken line = []) : parseLine line = .ok none := by
  rw [parseLine, h]

theorem parseLine_of_some {line : List Char} {v : Nat} (hne : lineToken line ≠ [])
    (h : parseBits (lineToken line) 0 = some v) :
    parseLine line = if v < 256 then .ok (some (BitVec.ofNat 8 v)) else .error .badLiteral := by
  cases htok : lineToken line with
  | nil => exact absurd htok hne
  | cons c cs =>
    rw [htok] at h
    simp only [parseLine, htok, h]

theorem parseLine_of_none {line : List Char} (h : parseBits (lineToken line) 0 = none) :
    parseLine line = .error .badLiteral := by
  cases htok : lineToken line with
  | nil => rw [htok] at h; cases h
  | cons c cs =>
    rw [htok] at h
    simp only [parseLine, htok, h]

theorem digit_not_blank (b : Bool) : ¬ isBlank (if b then '1' else '0') := by cases b <;> decide

theorem digit_ne_hash (b : Bool) : (if b then '1' else '0') ≠ '#' := by cases b <;> decide

/-- Settles O49: the blanks and the comment fall away; of what is left the digits give the value, and any other
character gives none. -/
theorem loadImageLineGivesItsByte : Obligations.LoadImageLineGivesItsByte := by
  intro before after tail hbefore hafter htail
  refine ⟨fun bits hbits => ?_, ?_, fun token htoken hbad => ?_⟩
  · have htok : lineToken (before ++ (bits.map fun b => if b then '1' else '0') ++ after ++ tail) =
        bits.map fun b => if b then '1' else '0' := by
      refine lineToken_between hbefore hafter htail ?_ ?_
      · exact fun h => (List.mem_map.mp h).elim fun b ⟨_, hb⟩ => digit_ne_hash b hb
      · exact List.forall_mem_map.mpr fun b _ => digit_not_blank b
    have hne : lineToken (before ++ (bits.map fun b => if b then '1' else '0') ++ after ++ tail) ≠ [] := by
      rw [htok]
      exact mt List.map_eq_nil_iff.mp hbits
    rw [parseLine_of_some hne ((congrArg (parseBits · 0) htok).trans (parseBits_digits bits 0))]
    exact if_congr Nat.lt_succ_iff rfl rfl
  · refine parseLine_of_nil ?_
    simpa using lineToken_between (token := []) (after := []) hbefore nofun htail nofun nofun
  · obtain ⟨c, hc, h0, h1, hblank⟩ := hbad
    have hmem : c ∈ lineToken (before ++ token ++ after ++ tail) :=
      mem_lineToken (hash_not_mem_content hbefore hafter htoken) htail (by simp [hc]) hblank
    exact parseLine_of_none (parseBits_eq_none hmem h0 h1 0)

/-! ### Load errors and exit statuses (R206, R207) -/

theorem launch_snd_eq_some {source : LaunchSource} {s : State} {e : LoadError} (h : (launch source s).2 = some e) :
    launch source s = (s, some e) := by
  cases hr : readImage source with
  | ok image => rw [launch_of_ok hr] at h; cases h
  | error e' => rw [launch_of_error hr] at h ⊢; cases h; rfl

/-- Settles O48: a launch with an error is the case of a failed read, and a long image is one. -/
theorem loadErrorLeavesTheCore : Obligations.LoadErrorLeavesTheCore := by
  refine ⟨fun source s e h => congrArg Prod.fst (launch_snd_eq_some h), fun lines image s hlines hlong => ?_⟩
  refine launch_of_error ?_ s
  rw [readImage, hlines]
  exact if_neg (not_le.mpr hlong)

/-- Settles O50: the run state or the load error names how the process ended, and the codes tell those ends apart. -/
theorem exitStatusTellsTheEnd : Obligations.ExitStatusTellsTheEnd := by
  intro codes s ⟨hnonzero, hinj⟩
  have failure_ne_zero {c : EndCause} (hc : c ≠ .normalHalt) : some (codes c) ≠ some 0 :=
    fun h => hnonzero c hc (Option.some.inj h)
  refine ⟨fun h => ?_, fun h => ?_, fun k p b h => ?_, fun source e h => ?_, fun e e' t hne heq => ?_⟩
  · rcases h with h | h <;> simp [exitStatus, endCause, runEnd, h]
  · simp [exitStatus, endCause, runEnd, h]
  · have hstatus : exitStatus codes none s = some (codes (.fatal k)) := by simp [exitStatus, endCause, runEnd, h]
    exact ⟨hstatus, hstatus ▸ failure_ne_zero nofun⟩
  · have hstatus : launchStatus codes source s = some (codes (.load e)) := by
      rw [launchStatus, launch_snd_eq_some h]
      rfl
    exact ⟨hstatus, hstatus ▸ failure_ne_zero nofun⟩
  · exact Option.map_injective (fun c d => hinj c d) heq

/-! ### Printed numerals (R145) -/

theorem toNat_digitChar : ∀ {d : Nat}, d < 10 → (digitChar d).toNat = 48 + d := by decide

/-- The decimal digits of a number below 1000, most significant first and without padding. -/
def decimalDigits (n : Nat) : List Nat :=
  if n < 10 then [n] else if n < 100 then [n / 10, n % 10] else [n / 100, n / 10 % 10, n % 10]

theorem decimal_eq_map (v : Byte) : decimal v = (decimalDigits v.toNat).map digitChar := by
  simp only [decimal, decimalDigits]
  split
  · rfl
  · split <;> rfl

theorem decimalDigits_lt_ten {n : Nat} (hn : n < 1000) : ∀ d ∈ decimalDigits n, d < 10 := by
  unfold decimalDigits
  split
  · simpa
  · split <;> simp only [List.forall_mem_cons, List.not_mem_nil, false_implies, implies_true, and_true] <;> omega

theorem decimalDigits_value (n : Nat) : (decimalDigits n).foldl (fun m d => 10 * m + d) 0 = n := by
  unfold decimalDigits
  split
  · simp
  · split <;> simp only [List.foldl_cons, List.foldl_nil] <;> omega

theorem decimalDigits_unpadded (n : Nat) : ∃ d ds, decimalDigits n = d :: ds ∧ (ds = [] ∨ d ≠ 0) := by
  unfold decimalDigits
  split
  · exact ⟨_, _, rfl, .inl rfl⟩
  · split
    · exact ⟨_, _, rfl, .inr (by omega)⟩
    · exact ⟨_, _, rfl, .inr (by omega)⟩

theorem digitChar_ne_zero {d : Nat} (hd : d < 10) (h : d ≠ 0) : digitChar d ≠ '0' := by
  intro hc
  have hcode : 48 + d = 48 := (toNat_digitChar hd).symm.trans (congrArg Char.toNat hc)
  omega

/-- Settles O51: each character is its digit's, and the digits have the value without a leading zero. -/
theorem outputIsDecimal : Obligations.OutputIsDecimal := by
  intro v
  have hlt : ∀ d ∈ decimalDigits v.toNat, d < 10 := decimalDigits_lt_ten (v.isLt.trans (by decide))
  obtain ⟨d, ds, hds, hlead⟩ := decimalDigits_unpadded v.toNat
  rw [decimal_eq_map]
  refine ⟨?_, ?_, ?_, ?_⟩
  · simp [hds]
  · rw [List.foldl_map, List.foldl_ext _ (fun n d => 10 * n + d) 0, decimalDigits_value]
    intro n d hd
    rw [toNat_digitChar (hlt d hd), Nat.add_sub_cancel_left]
  · refine List.forall_mem_map.mpr fun d hd => ?_
    have hten : d < 10 := hlt d hd
    rw [toNat_digitChar hten]
    omega
  · rw [hds] at hlt ⊢
    rcases hlead with rfl | hd
    · exact .inl rfl
    · exact .inr (mt Option.some.inj (digitChar_ne_zero (hlt d List.mem_cons_self) hd))

end Sys2Proof.Machine
